-- ==== Sys2Proof/Word.lean ====
section
/-! DEFINITION. The word types of the block (`00_scope.md` R7): every datum is unsigned. -/

namespace Sys2Proof

/-- `u8` (R7). -/
abbrev Byte := BitVec 8

/-- `u16` (R7). -/
abbrev U16 := BitVec 16

/-- The width of the result of `LENGTH` (R7, R73). -/
abbrev U17 := BitVec 17

/-- The width of the phase codes (R11) and of the result codes (R55). -/
abbrev Code := BitVec 3

/-- The width of the dispatch word `DW[13:0]` (R57). -/
abbrev DispatchWord := BitVec 14

end Sys2Proof
end

