-- ==== Sys2Proof/Config.lean ====
section
/-! DEFINITION. What is fixed when the block is built (`00_scope.md` R6, `30_encoding.md` R55) and the
values the spec leaves open (`93_implementation_defined.md` U4, U5, U9, U16). -/

namespace Sys2Proof.Config

/-- The parameter `RESULT_CODES` (R55, decision D4): one 3-bit code for each kind of `Result`. -/
structure ResultCodes where
  inProgress       : Code
  success          : Code
  invalidStartByte : Code
  checksumError    : Code
  incompleteData   : Code
  deriving DecidableEq, Repr

/-- The OPEN parameters of the block (R6, decisions D4 and D6). Every operation of the model takes them
as an argument; `params` below are this hardware's values. -/
structure Params where
  magic0 : Byte
  magic1 : Byte
  codes  : ResultCodes
  deriving DecidableEq, Repr

/-- R55's table of codes. -/
def resultCodes : ResultCodes where
  inProgress       := 0b000#3
  success          := 0b001#3
  invalidStartByte := 0b010#3
  checksumError    := 0b011#3
  incompleteData   := 0b100#3

/-- The values of R6 for this hardware: `MAGIC0 = 0x42`, `MAGIC1 = 0x52` (UNVERIFIED, log entry 1). -/
def params : Params where
  magic0 := 0x42#8
  magic1 := 0x52#8
  codes  := resultCodes

/-- `MAX_PAYLOAD` (R6, decision D7): no declared length is refused. -/
def maxPayload : Nat := 65535

/-- `HEADER_LEN` (R6). -/
def headerLen : Nat := 6

/-- `TRAILER_LEN` (R6). -/
def trailerLen : Nat := 2

/-- `FIXED_LEN` (R6): the two magic bytes and the header. -/
def fixedLen : Nat := 8

/-! Free values: what an output port shows where the spec calls it unspecified. Each takes the state's
`draw` counter, which every machine step advances, so that two cycles may show different values
(DESIGN CHOICE, log entry 6). -/

/-- `res_kind` in a cycle with `res_valid = 0` (U16). -/
opaque freeResKind : Nat → Code

/-- `res_valid` before the first `RESET` (R160, U9). -/
opaque freeResValid : Nat → Bool

/-- `msg_valid` before the first `RESET` (R160, U9). -/
opaque freeMsgValid : Nat → Bool

/-- `msg_kind` while `RES.valid = 0` (U4). -/
opaque freeMsgKind : Nat → Code

/-- `msg_payload_length` while `RES.valid = 0` (U4). -/
opaque freePayloadLength : Nat → U16

/-- `msg_message_id` while `RES.valid = 0` (U4). -/
opaque freeMessageId : Nat → U16

/-- `msg_src_device_id` while `RES.valid = 0` (U4). -/
opaque freeSrcDeviceId : Nat → Byte

/-- `msg_dst_device_id` while `RES.valid = 0` (U4). -/
opaque freeDstDeviceId : Nat → Byte

/-- `msg_checksum` while `RES.valid = 0` (U4). -/
opaque freeChecksum : Nat → U16

/-- `msg_rd_data` at the given index, where no payload byte is readable (U4, U5). -/
opaque freePayloadByte : Nat → Nat → Byte

end Sys2Proof.Config
end

