-- ==== Sys2Proof/Syntax.lean ====
section
/-! DEFINITION. Messages, operations and the input stream: one constructor of `Instr` for every row of
`opcode_table.json`. -/

namespace Sys2Proof

/-- A Message (`10_state.md` R14): the logical content of a frame. -/
structure Message where
  payloadLength : U16
  messageId     : U16
  srcDeviceId   : Byte
  dstDeviceId   : Byte
  payload       : List Byte
  checksum      : U16
  deriving DecidableEq, Repr

/-- The operations. The first twelve are what one accepted byte does (`30_encoding.md` R58), each with the
byte its pattern carries; then the pin operation, the five functions and the five pseudo-operations
(R66). -/
inductive Instr where
  /-- `S1.HIT` (R80); the accepted byte is `MAGIC0`. -/
  | s1Hit
  /-- `S1.MISS` (R81). -/
  | s1Miss (b : Byte)
  /-- `S2.HIT` (R82); the accepted byte is `MAGIC1`. -/
  | s2Hit
  /-- `S2.MISS` (R83). -/
  | s2Miss (b : Byte)
  /-- `HDR.ACC` (R90). -/
  | hdrAcc (b : Byte)
  /-- `HDR.END0` (R91). -/
  | hdrEnd0 (b : Byte)
  /-- `HDR.ENDN` (R92). -/
  | hdrEndN (b : Byte)
  /-- `PAY.ACC` (R100). -/
  | payAcc (b : Byte)
  /-- `PAY.END` (R101). -/
  | payEnd (b : Byte)
  /-- `CK.ACC` (R110). -/
  | ckAcc (b : Byte)
  /-- `CK.OK` (R111). -/
  | ckOk (b : Byte)
  /-- `CK.BAD` (R112). -/
  | ckBad (b : Byte)
  /-- `RESET` (R122): the pin `rst`. -/
  | reset
  /-- `CKSUM(M)` (R70). -/
  | cksum (m : Message)
  /-- `VALID(M)` (R71). -/
  | valid (m : Message)
  /-- `LENGTH(M)` (R73). -/
  | length (m : Message)
  /-- `SETCRC(M)` (R130). -/
  | setcrc (m : Message)
  /-- `SERIALIZE(M)` (R131). -/
  | serialize (m : Message)
  /-- `STEP(b)` (R120). -/
  | step (b : Byte)
  /-- `FEED(s)` (R123). -/
  | feed (bs : List Byte)
  /-- `FRAME(id, src, dst, [p ..])` (R65). -/
  | frame (id : U16) (src dst : Byte) (payload : List Byte)
  /-- `FRAMEX(L, id, src, dst, [p ..], c)` (R65). -/
  | framex (len id : U16) (src dst : Byte) (payload : List Byte) (c : U16)
  /-- `NOISE(b ..)` (R65). -/
  | noise (bs : List Byte)
  deriving DecidableEq, Repr

/-- What the host drives on the input ports in one clock cycle (`45_system.md` section 1). -/
structure PortIn where
  rst     : Bool
  inValid : Bool
  inData  : Byte
  deriving DecidableEq, Repr

/-- An item of the host's input stream (`30_encoding.md` R64): a clock cycle with its input ports, or a
function or pseudo-operation the host performs at this point. -/
inductive Item where
  | cycle (p : PortIn)
  | call (i : Instr)
  deriving DecidableEq, Repr

/-- The byte literal of R64: a cycle that presents `b` (`in_valid = 1`, `rst = 0`). -/
abbrev Item.byte (b : Byte) : Item := .cycle ⟨false, true, b⟩

/-- `RESET` in a stream (R65): a cycle with `rst = 1`. -/
abbrev Item.rst : Item := .cycle ⟨true, false, 0#8⟩

/-- A cycle with `in_valid = 0` and `rst = 0` (R120). -/
abbrev Item.idle : Item := .cycle ⟨false, false, 0#8⟩

end Sys2Proof
end

