-- ==== Sys2Proof/WellFormed.lean ====
section
/-! DEFINITION. Which operations and stream items are well formed. -/

namespace Sys2Proof

/-- A message whose payload has the declared length (`46_reference_encoder.md` R131). -/
def Message.complete (m : Message) : Bool :=
  m.payload.length == m.payloadLength.toNat

/-- The operations a byte selects: the twelve `DW14` rows of R58. The host never names one (R64). -/
def Instr.dispatched : Instr → Bool
  | .s1Hit | .s1Miss _ | .s2Hit | .s2Miss _ => true
  | .hdrAcc _ | .hdrEnd0 _ | .hdrEndN _ => true
  | .payAcc _ | .payEnd _ => true
  | .ckAcc _ | .ckOk _ | .ckBad _ => true
  | .reset | .cksum _ | .valid _ | .length _ | .setcrc _ | .serialize _ => false
  | .step _ | .feed _ | .frame .. | .framex .. | .noise _ => false

/-- Well-formed operations. A `MISS` carries a byte the `HIT` row before it does not take (R58, first
match); `SERIALIZE` takes a complete message (R131); the payload of a `FRAME` has a length that a u16
`payload_length` can hold (R65). -/
def Instr.wf (P : Config.Params) : Instr → Bool
  | .s1Hit => true
  | .s1Miss b => b != P.magic0
  | .s2Hit => true
  | .s2Miss b => b != P.magic1
  | .hdrAcc _ | .hdrEnd0 _ | .hdrEndN _ => true
  | .payAcc _ | .payEnd _ => true
  | .ckAcc _ | .ckOk _ | .ckBad _ => true
  | .reset | .cksum _ | .valid _ | .length _ | .setcrc _ => true
  | .serialize m => m.complete
  | .step _ | .feed _ => true
  | .frame _ _ _ p => decide (p.length ≤ Config.maxPayload)
  | .framex .. | .noise _ => true

/-- A stream item the host may present: any cycle, or a well-formed operation that is not one of the
twelve a byte selects. -/
def Item.wf (P : Config.Params) : Item → Bool
  | .cycle _ => true
  | .call i => !i.dispatched && i.wf P

end Sys2Proof
end

