-- ==== Sys2Proof/Decode.lean ====
section
/-! DEFINITION. The dispatch table of `30_encoding.md` R57 to R59: from a dispatch word to an operation,
and back. -/

namespace Sys2Proof

/-- Why a dispatch word is no operation's. -/
inductive DecodeError where
  /-- No row of R58 matches: the phase field is one of the unassigned codes (R59). -/
  | noRow (phase : Code)
  /-- Bits 15:14 of the two bytes that hold a dispatch word are not zero: the word has 14 bits (R57). -/
  | beyondBit13
  /-- Fewer than the two bytes that hold a dispatch word. -/
  | tooShort
  deriving DecidableEq, Repr

/-- `DW[13:0]` from its fields (R57): `PHASE`, `FULL`, `LZ`, `CKOK`, `b`. -/
def mkWord (phase : Code) (full lz ckok : Bool) (b : Byte) : DispatchWord :=
  phase ++ BitVec.ofBool full ++ BitVec.ofBool lz ++ BitVec.ofBool ckok ++ b

/-- One row of the table of R58. -/
structure Row where
  pattern : DispatchWord
  mask    : DispatchWord
  op      : Byte → Instr

/-- A row takes a word when `(DW & mask) = match` (R58). -/
def Row.takes (r : Row) (w : DispatchWord) : Bool := (w &&& r.mask) == r.pattern

/-- The rows of R58 in first-match order. The low byte of the two `HIT` match values is the parameter, as
R58 says. -/
def rows (P : Config.Params) : List Row :=
  [ ⟨0b000000#6 ++ P.magic0, 0x38FF#14, fun _ => .s1Hit⟩,
    ⟨0x0000#14, 0x3800#14, .s1Miss⟩,
    ⟨0b001000#6 ++ P.magic1, 0x38FF#14, fun _ => .s2Hit⟩,
    ⟨0x0800#14, 0x3800#14, .s2Miss⟩,
    ⟨0x1000#14, 0x3C00#14, .hdrAcc⟩,
    ⟨0x1600#14, 0x3E00#14, .hdrEnd0⟩,
    ⟨0x1400#14, 0x3E00#14, .hdrEndN⟩,
    ⟨0x1800#14, 0x3C00#14, .payAcc⟩,
    ⟨0x1C00#14, 0x3C00#14, .payEnd⟩,
    ⟨0x2000#14, 0x3C00#14, .ckAcc⟩,
    ⟨0x2500#14, 0x3D00#14, .ckOk⟩,
    ⟨0x2400#14, 0x3D00#14, .ckBad⟩ ]

/-- The operation a dispatch word selects: the first row that takes it (R58, R59). -/
def decodeWord (P : Config.Params) (w : DispatchWord) : Except DecodeError Instr :=
  match (rows P).find? (fun r => r.takes w) with
  | some r => .ok (r.op (w.extractLsb' 0 8))
  | none => .error (.noRow (w.extractLsb' 11 3))

/-- Decoding from bytes: a dispatch word laid out low byte first, with what follows it
(DESIGN CHOICE, log entry 12). -/
def decode (P : Config.Params) : List Byte → Except DecodeError (Instr × List Byte)
  | lo :: hi :: rest =>
    if hi.extractLsb' 6 2 = 0#2 then
      match decodeWord P (hi.extractLsb' 0 6 ++ lo) with
      | .ok i => .ok (i, rest)
      | .error e => .error e
    else .error .beyondBit13
  | _ => .error .tooShort

/-- The dispatch word of an operation, with every bit its row does not test at the value R57 gives that
bit there: 0. `RESET`, the functions and the pseudo-operations have no encoding (R66). -/
def encodeWord (P : Config.Params) : Instr → Option DispatchWord
  | .s1Hit => some (mkWord 0b000#3 false false false P.magic0)
  | .s1Miss b => some (mkWord 0b000#3 false false false b)
  | .s2Hit => some (mkWord 0b001#3 false false false P.magic1)
  | .s2Miss b => some (mkWord 0b001#3 false false false b)
  | .hdrAcc b => some (mkWord 0b010#3 false false false b)
  | .hdrEnd0 b => some (mkWord 0b010#3 true true false b)
  | .hdrEndN b => some (mkWord 0b010#3 true false false b)
  | .payAcc b => some (mkWord 0b011#3 false false false b)
  | .payEnd b => some (mkWord 0b011#3 true false false b)
  | .ckAcc b => some (mkWord 0b100#3 false false false b)
  | .ckOk b => some (mkWord 0b100#3 true false true b)
  | .ckBad b => some (mkWord 0b100#3 true false false b)
  | .reset | .cksum _ | .valid _ | .length _ | .setcrc _ | .serialize _ => none
  | .step _ | .feed _ | .frame .. | .framex .. | .noise _ => none

/-- The two bytes of an operation's dispatch word, low byte first (DESIGN CHOICE, log entry 12). -/
def encode (P : Config.Params) (i : Instr) : Option (List Byte) :=
  match encodeWord P i with
  | some w => some [w.extractLsb' 0 8, 0b00#2 ++ w.extractLsb' 8 6]
  | none => none

/-- The operation of the table's word `w`, whose bits from `nbits` up are zero. -/
def decodeTableWord (nbits w : Nat) : Option Instr :=
  if w < 2 ^ nbits ∧ w < 2 ^ 16 then
    match decode Config.params [BitVec.ofNat 8 w, BitVec.ofNat 8 (w / 256)] with
    | .ok (i, _) => some i
    | .error _ => none
  else none

end Sys2Proof
end

