-- ==== Sys2Proof/Machine/State.lean ====
section
/-! DEFINITION. The state of the block, element by element as `10_state.md` R10 lists it, and beside it the
ports and the host's side of the interface. -/

namespace Sys2Proof.Machine

/-- A byte buffer filled by appending: index `i` holds the `i`-th byte that arrived (`10_state.md` R15,
`20_memory.md` R31). The sequence is its own canonical form (DESIGN CHOICE, log entry 8). -/
abbrev Memory := List Byte

/-- The phase codes R11 leaves unassigned. -/
inductive UnassignedCode where
  | c101 | c110 | c111
  deriving DecidableEq, Repr

/-- `PHASE` with the buffer that is live in it: the tagged union of R10, R11 and R19. A dead buffer is no
part of the state. `HIDX`, `PCNT` and `CIDX` are the lengths of the sequences (R13, R15, R16; DESIGN CHOICE, log
entry 2). -/
inductive Live where
  /-- `AwaitingStart1`, code `0b000`. -/
  | awaitingStart1
  /-- `AwaitingStart2`, code `0b001`. -/
  | awaitingStart2
  /-- `ReadingHeader`, code `0b010`, with `HB`. -/
  | readingHeader (hb : List Byte)
  /-- `ReadingPayload`, code `0b011`, with `PB`. -/
  | readingPayload (pb : Memory)
  /-- `ReadingChecksum`, code `0b100`, with `CB`. -/
  | readingChecksum (cb : List Byte)
  /-- `PHASE` holds an unassigned code (R11, U6): stuck until `RESET`. -/
  | unassigned (c : UnassignedCode)
  /-- Before the first `RESET` after power-up (R160, U9): every element is unspecified. -/
  | powerUp
  deriving DecidableEq, Repr

/-- The kind of a finalized frame (`RES.kind`, R18). -/
inductive ResKind where
  | success
  | checksumError
  deriving DecidableEq, Repr

/-- What `RES` holds while `RES.valid = 1` (R18). -/
structure ResBank where
  kind : ResKind
  msg  : Message
  deriving DecidableEq, Repr

/-- The error kinds (`60_exceptions.md` R140 to R143). `incompleteData` is the reserved name of R60: no step
produces it (DESIGN CHOICE, log entry 20). -/
inductive ErrKind where
  | invalidStartByte
  | checksumError (m : Message)
  | incompleteData
  deriving DecidableEq, Repr

/-- The `Result` a step returns (`30_encoding.md` R55). -/
inductive Result where
  | inProgress
  | success (m : Message)
  | error (e : ErrKind)
  deriving DecidableEq, Repr

/-- The whole state of `PFD` (R10). `res = none` is `RES.valid = 0`: `RES.kind` and `RES.msg` then have no
value (U4; DESIGN CHOICE, log entry 4). -/
structure Pfd where
  live : Live
  msg  : Message
  acc  : U16
  res  : Option ResBank
  deriving DecidableEq, Repr

/-- The value a function or `FEED` hands to the host. -/
inductive Value where
  /-- of `CKSUM` -/
  | word (w : U16)
  /-- of `VALID` -/
  | bit (b : Bool)
  /-- of `LENGTH` -/
  | size (n : U17)
  /-- of `SETCRC` -/
  | message (m : Message)
  /-- of `SERIALIZE` -/
  | bytes (bs : List Byte)
  /-- of `FEED`: the last `Result` and the number of bytes consumed -/
  | fed (r : Result) (n : Nat)
  deriving DecidableEq, Repr

/-- The machine: the block, what its result port reports, and the host's side. -/
structure State where
  /-- the block's own state (R10) -/
  pfd    : Pfd
  /-- the result port (R121): `none` is `res_valid = 0` (DESIGN CHOICE, log entry 14) -/
  result : Option Result
  /-- the input stream still to be presented (R30, R64; DESIGN CHOICE, log entry 5) -/
  input  : List Item
  /-- the value of the host's last function call or `FEED` (the model's own field, DESIGN CHOICE, log entry 7) -/
  value  : Option Value
  /-- the counter that draws free values (the model's own field, DESIGN CHOICE, log entry 6) -/
  draw   : Nat
  deriving DecidableEq, Repr

/-- Why the machine stops with a fault. -/
inductive Fault where
  /-- A byte is presented while `PHASE` holds an unassigned code: no row of R58 matches and the block is
  stuck until `RESET` (U6). Raised by the dispatch of a byte. Safe: no run from `RESET` meets it. -/
  | stuckPhase
  deriving DecidableEq, Repr

/-- Why an operation is refused. -/
inductive Refusal where
  /-- The operation has no meaning in the model. Raised by an arm of `exec` only; no arm raises it now. Safe. -/
  | notModelled (mnemonic : String)
  /-- One of the twelve operations of R58 is asked for in a state and with a byte for which the dispatch
  word selects another row, so that the spec gives it no effect there. Raised by those twelve meanings;
  never by a step, which performs the row that is selected (DESIGN CHOICE, log entry 9). Safe. -/
  | notSelected
  /-- A byte is presented before the first `RESET` (R160, U9). Raised by the dispatch of a byte. Safe. -/
  | neverReset
  /-- `SERIALIZE` of a message that is not complete (R131, U8). Raised by `SERIALIZE`. Safe. -/
  | incompleteMessage
  /-- `FRAME` with more payload bytes than a u16 `payload_length` can say (R65; DESIGN CHOICE, log entry 10). Raised by
  `FRAME`. Safe. -/
  | frameTooLong
  /-- An item of the stream names one of the twelve operations of R58, which are not input (R64). Raised by
  the fetch of an item. Safe. -/
  | notInput
  deriving DecidableEq, Repr

/-- The initial message (R26, R113, R122; decision D9). -/
def initialMessage : Message :=
  ⟨0#16, 0#16, 0#8, 0#8, [], 0#16⟩

/-- The block after `RESET` (R26). -/
def Pfd.initial : Pfd :=
  { live := .awaitingStart1, msg := initialMessage, acc := 0#16, res := none }

/-- The machine after `RESET`, with nothing presented yet (R26, R161; DESIGN CHOICE, log entries 3 and 5 to 7). -/
def State.reset : State :=
  { pfd := Pfd.initial, result := none, input := [], value := none, draw := 0 }

/-- A machine that has never been reset (R160): only `RESET` is defined. The elements beside the phase are
unspecified there and no operation reads them before `RESET` has written them. -/
def State.powerUp : State :=
  { State.reset with pfd := { Pfd.initial with live := .powerUp } }

end Sys2Proof.Machine
end

