-- ==== Sys2Proof/Machine/Ops.lean ====
section
/-! DEFINITION. The shared operations: bytes and words, the buffers, the checksum functions, raising an
error, finalizing a frame, and handing a block operation's outcome to the machine. -/

namespace Sys2Proof.Machine

/-! ### Bytes and words (`00_scope.md` section 6, `20_memory.md` R34, R36) -/

/-- `zext_16`: never sign extension (R72 (a)). -/
def zext16 (b : Byte) : U16 := b.setWidth 16

/-- `lo8`. -/
def lo8 (v : U16) : Byte := v.extractLsb' 0 8

/-- `hi8`. -/
def hi8 (v : U16) : Byte := v.extractLsb' 8 8

/-- `le16(b0, b1)`: `b0`, first on the wire, is the low byte (R34, R52). -/
def le16 (b0 b1 : Byte) : U16 := b1 ++ b0

/-- `s +16 zext_16(b)`: the one addition of the block (R72 (b)). -/
def addByte (s : U16) (b : Byte) : U16 := s + zext16 b

/-- A byte sequence added to a running sum, in order. -/
def addBytes (s : U16) (bs : List Byte) : U16 := bs.foldl addByte s

/-! ### Buffers (`20_memory.md` R30 to R33) -/

/-- The one write primitive, `MemWrite(PB, PCNT, 1, b)` (R31). -/
def Memory.append (m : Memory) (b : Byte) : Memory := m ++ [b]

/-- The byte at index `a`; `none` at an index nothing has been appended to. -/
def Memory.read? (m : Memory) (a : Nat) : Option Byte := m[a]?

/-- A buffer the payload memory can hold (R15: `MAX_PAYLOAD` entries). -/
abbrev Memory.wf (m : Memory) : Prop := m.length ≤ Config.maxPayload

/-- The buffer as address and byte pairs: the addresses are `0, 1, ..` in rising order. -/
def Memory.cells (m : Memory) : List Host.Cell := m.zipIdx.map fun p => (p.2, p.1)

/-- `PB` where it is live (R15). -/
def Pfd.pb? (d : Pfd) : Option Memory :=
  match d.live with
  | .readingPayload pb => some pb
  | _ => none

/-- `MemRead(RES.payload, a, 1)` (R32): `none` outside `0 <= a < RES.msg.payload_length` and while
`RES.valid = 0`, where the spec gives no byte (U4, U5). -/
def Pfd.readRes (d : Pfd) (a : Nat) : Option Byte :=
  match d.res with
  | some r => if a < r.msg.payloadLength.toNat then Memory.read? r.msg.payload a else none
  | none => none

/-! ### Checksum, validity, length, and the sender's functions (`40_checksum.md`, `46_reference_encoder.md`) -/

/-- `CKSUM(M)` (R70). -/
def cksum (P : Config.Params) (m : Message) : U16 :=
  let s := 0#16
  let s := addByte s P.magic0
  let s := addByte s P.magic1
  let s := addByte s (lo8 m.payloadLength)
  let s := addByte s (hi8 m.payloadLength)
  let s := addByte s (lo8 m.messageId)
  let s := addByte s (hi8 m.messageId)
  let s := addByte s m.srcDeviceId
  let s := addByte s m.dstDeviceId
  addBytes s m.payload

/-- `VALID(M)` (R71). -/
def valid (P : Config.Params) (m : Message) : Bool := m.checksum == cksum P m

/-- `LENGTH(M)` (R73), computed in integers and 17 bits wide. -/
def frameLength (m : Message) : U17 :=
  BitVec.ofNat 17 (Config.fixedLen + m.payloadLength.toNat + Config.trailerLen)

/-- `SETCRC(M)` (R130). -/
def setcrc (P : Config.Params) (m : Message) : Message := { m with checksum := cksum P m }

/-- The frame layout of R50, with the length field and the checksum given (R65, `FRAMEX`). -/
def frameBytes (P : Config.Params) (len id : U16) (src dst : Byte) (payload : List Byte) (c : U16) :
    List Byte :=
  [P.magic0, P.magic1, lo8 len, hi8 len, lo8 id, hi8 id, src, dst] ++ payload ++ [lo8 c, hi8 c]

/-- `SERIALIZE(M)` (R131), for a complete message. -/
def serialize (P : Config.Params) (m : Message) : List Byte :=
  [P.magic0, P.magic1, lo8 m.payloadLength, hi8 m.payloadLength, lo8 m.messageId, hi8 m.messageId,
    m.srcDeviceId, m.dstDeviceId] ++ m.payload ++ [lo8 m.checksum, hi8 m.checksum]

/-- `W(M)` (R74): the bytes of a frame that its checksum sums. -/
def summedBytes (P : Config.Params) (m : Message) : List Byte :=
  [P.magic0, P.magic1, lo8 m.payloadLength, hi8 m.payloadLength, lo8 m.messageId, hi8 m.messageId,
    m.srcDeviceId, m.dstDeviceId] ++ m.payload

/-- The message of `FRAME(id, src, dst, [p ..])` (R65): its length field is the number of bytes listed, its
checksum `CKSUM` of the rest. -/
def frameMessage (P : Config.Params) (id : U16) (src dst : Byte) (payload : List Byte) : Message :=
  setcrc P ⟨BitVec.ofNat 16 payload.length, id, src, dst, payload, 0#16⟩

/-! ### The outcome of a block operation -/

/-- What one block operation answers: the block after it and the `Result` it returns (`00_scope.md` R9), or
why it does not run. -/
abbrev Performed := Host.Outcome (Pfd × Result) Fault Refusal

/-- Returning `InProgress`: not an error (R144). -/
def proceed (d : Pfd) : Performed := .next (d, .inProgress)

/-- `raise E(info)` (`00_scope.md` section 6, `60_exceptions.md` R148): the error is the step's `Result` and
nothing else happens on its account. No position, cause or mode is saved and control goes nowhere; there
is nothing to return from (R150). The writes of the raising rule are in `d` already. -/
def raise (e : ErrKind) (d : Pfd) : Performed := .next (d, .error e)

/-- `FINALIZE(kind, m)` (`44_trailer.md` R113): the message moves to `RES` and the decoder part is reset to
initial, whatever the kind. -/
def finalize (kind : ResKind) (m : Message) (_d : Pfd) : Pfd :=
  { live := .awaitingStart1, msg := initialMessage, acc := 0#16, res := some ⟨kind, m⟩ }

/-- A block operation's outcome as the machine's: the block is replaced and the `Result` stands on the
result port (R121). -/
def report (o : Performed) (s : State) : Host.Outcome State Fault Refusal :=
  match o with
  | .next (d, r) => .next { s with pfd := d, result := some r }
  | .fault f => .fault f
  | .refused r => .refused r

/-- A function's value handed to the host (R66): the block and its ports are not touched. -/
def answer (v : Value) (s : State) : Host.Outcome State Fault Refusal :=
  .next { s with value := some v }

/-- Bytes put in front of the input stream, one cycle each (R64, R65). -/
def present (bs : List Byte) (s : State) : Host.Outcome State Fault Refusal :=
  .next { s with input := bs.map Item.byte ++ s.input }

end Sys2Proof.Machine
end

