-- ==== Sys2Proof/Machine/Functions.lean ====
section
/-! DEFINITION. The five functions of `30_encoding.md` R66: `CKSUM`, `VALID`, `LENGTH` (`40_checksum.md`) and the
sender's `SETCRC`, `SERIALIZE` (`46_reference_encoder.md`). None reads or writes the block. -/

namespace Sys2Proof.Machine

/-- `CKSUM(M)` (R70). -/
def execCksum (m : Message) (s : State) : Host.Outcome State Fault Refusal :=
  answer (.word (cksum Config.params m)) s

/-- `VALID(M)` (R71). -/
def execValid (m : Message) (s : State) : Host.Outcome State Fault Refusal :=
  answer (.bit (valid Config.params m)) s

/-- `LENGTH(M)` (R73). -/
def execLength (m : Message) (s : State) : Host.Outcome State Fault Refusal :=
  answer (.size (frameLength m)) s

/-- `SETCRC(M)` (R130). -/
def execSetcrc (m : Message) (s : State) : Host.Outcome State Fault Refusal :=
  answer (.message (setcrc Config.params m)) s

/-- `SERIALIZE(M)` (R131): a message that is not complete is refused (U8). -/
def execSerialize (m : Message) (s : State) : Host.Outcome State Fault Refusal :=
  if m.complete then answer (.bytes (serialize Config.params m)) s else .refused .incompleteMessage

end Sys2Proof.Machine
end

