-- ==== Sys2Proof/Machine/Stream.lean ====
section
/-! DEFINITION. The pseudo-operations that stand for bytes of the stream (`30_encoding.md` R65): `FRAME`, `FRAMEX`,
`NOISE`. Each puts its bytes where it stood. -/

namespace Sys2Proof.Machine

/-- The bytes of `FRAME(id, src, dst, [p ..])` (R65). -/
def frameOf (P : Config.Params) (id : U16) (src dst : Byte) (p : List Byte) : List Byte :=
  let m := frameMessage P id src dst p
  frameBytes P m.payloadLength id src dst p m.checksum

/-- `FRAME`: a payload no u16 length can say is refused (DESIGN CHOICE, log entry 10). -/
def execFrame (id : U16) (src dst : Byte) (p : List Byte) (s : State) :
    Host.Outcome State Fault Refusal :=
  if p.length ≤ Config.maxPayload then present (frameOf Config.params id src dst p) s
  else .refused .frameTooLong

/-- `FRAMEX`: the length field and the checksum are as given, whatever the number of payload bytes. -/
def execFramex (len id : U16) (src dst : Byte) (p : List Byte) (c : U16) (s : State) :
    Host.Outcome State Fault Refusal :=
  present (frameBytes Config.params len id src dst p c) s

/-- `NOISE`: the bytes listed. -/
def execNoise (bs : List Byte) (s : State) : Host.Outcome State Fault Refusal :=
  present bs s

end Sys2Proof.Machine
end

