-- ==== Sys2Proof/Machine/Operands.lean ====
section
/-! DEFINITION. What an operation reads of the state: phase, counts, position and assembled fields. -/

namespace Sys2Proof.Machine

/-- The code of an unassigned phase (R11). -/
def UnassignedCode.code : UnassignedCode → Code
  | .c101 => 0b101#3
  | .c110 => 0b110#3
  | .c111 => 0b111#3

/-- The phase code of R11; none before the first `RESET`, where it is unspecified (R160). -/
def Live.code : Live → Option Code
  | .awaitingStart1 => some 0b000#3
  | .awaitingStart2 => some 0b001#3
  | .readingHeader _ => some 0b010#3
  | .readingPayload _ => some 0b011#3
  | .readingChecksum _ => some 0b100#3
  | .unassigned c => some c.code
  | .powerUp => none

/-- `HIDX` where it is live (R13). -/
def Pfd.hidx (d : Pfd) : Option Nat :=
  match d.live with
  | .readingHeader hb => some hb.length
  | _ => none

/-- `PCNT` where it is live (R15). -/
def Pfd.pcnt (d : Pfd) : Option Nat :=
  match d.live with
  | .readingPayload pb => some pb.length
  | _ => none

/-- `CIDX` where it is live (R16). -/
def Pfd.cidx (d : Pfd) : Option Nat :=
  match d.live with
  | .readingChecksum cb => some cb.length
  | _ => none

/-- The position `k` of R12: the offset within the frame of the byte awaited. -/
def Pfd.position (d : Pfd) : Option Nat :=
  match d.live with
  | .awaitingStart1 => some 0
  | .awaitingStart2 => some 1
  | .readingHeader hb => some (2 + hb.length)
  | .readingPayload pb => some (8 + pb.length)
  | .readingChecksum cb => some (8 + d.msg.payloadLength.toNat + cb.length)
  | .unassigned _ | .powerUp => none

/-- `RES.valid` (R18). -/
def Pfd.resValid (d : Pfd) : Bool := d.res.isSome

/-- The four header fields assembled from the six header bytes (`30_encoding.md` R52), written into `m`. -/
def withHeader (m : Message) (h0 h1 h2 h3 h4 h5 : Byte) : Message :=
  { m with
    payloadLength := le16 h0 h1
    messageId := le16 h2 h3
    srcDeviceId := h4
    dstDeviceId := h5 }

/-- The checksum field assembled from the two trailer bytes (R52), written into `m`. -/
def withTrailer (m : Message) (c0 c1 : Byte) : Message :=
  { m with checksum := le16 c0 c1 }

end Sys2Proof.Machine
end

