-- ==== Sys2Proof/Machine/Flags.lean ====
section
/-! DEFINITION. The predicates of the dispatch word and the choice of an operation (`30_encoding.md` R57 to
R59). The block has no condition codes (R22); these are combinational. -/

namespace Sys2Proof.Machine

/-- `FULL` (R57): accepting a byte fills the live buffer. `PCNT + 1` does not wrap. -/
def full (d : Pfd) : Bool :=
  match d.live with
  | .readingHeader hb => hb.length == 5
  | .readingPayload pb => pb.length + 1 == d.msg.payloadLength.toNat
  | .readingChecksum cb => cb.length == 1
  | _ => false

/-- `LZ` (R57): five header bytes are in and the length they give is zero. -/
def lz (d : Pfd) : Bool :=
  match d.live with
  | .readingHeader [h0, h1, _, _, _] => le16 h0 h1 == 0#16
  | _ => false

/-- `CKOK` (R57): one trailer byte is in and the trailer that `b` completes equals `CKSUM(MSG)`
(DEDUCED, log entry 21). -/
def ckok (P : Config.Params) (d : Pfd) (b : Byte) : Bool :=
  match d.live with
  | .readingChecksum [c0] => le16 c0 b == cksum P d.msg
  | _ => false

/-- `DW[13:0]` (R57); none before the first `RESET`, where `PHASE` is unspecified (R160). -/
def dispatchWord (P : Config.Params) (d : Pfd) (b : Byte) : Option DispatchWord :=
  match d.live.code with
  | some c => some (mkWord c (full d) (lz d) (ckok P d b) b)
  | none => none

/-- The operation a byte selects (R58). Before the first `RESET` a byte is refused (U9); with an unassigned
phase code no row matches and the block is stuck (U6). -/
def select (P : Config.Params) (d : Pfd) (b : Byte) : Host.Outcome Instr Fault Refusal :=
  match dispatchWord P d b with
  | none => .refused .neverReset
  | some w =>
    match decodeWord P w with
    | .ok i => .next i
    | .error _ => .fault .stuckPhase

/-- The code of a `Result` (R55). -/
def Result.code (C : Config.ResultCodes) : Result → Code
  | .inProgress => C.inProgress
  | .success _ => C.success
  | .error .invalidStartByte => C.invalidStartByte
  | .error (.checksumError _) => C.checksumError
  | .error .incompleteData => C.incompleteData

/-- The code of `RES.kind` (R18, R55). -/
def ResKind.code (C : Config.ResultCodes) : ResKind → Code
  | .success => C.success
  | .checksumError => C.checksumError

end Sys2Proof.Machine
end

