-- ==== Sys2Proof/Machine/Header.lean ====
section
/-! DEFINITION. Header accumulation (`42_header.md` R90 to R92). -/

namespace Sys2Proof.Machine

/-- `HDR.ACC` (R90). -/
def opHdrAcc (b : Byte) (d : Pfd) : Performed :=
  match d.live with
  | .readingHeader hb =>
    if hb.length = 5 then .refused .notSelected
    else proceed { d with live := .readingHeader (hb ++ [b]), acc := addByte d.acc b }
  | _ => .refused .notSelected

/-- `HDR.END0` (R91): the payload phase is skipped. -/
def opHdrEnd0 (b : Byte) (d : Pfd) : Performed :=
  match d.live with
  | .readingHeader [h0, h1, h2, h3, h4] =>
    if le16 h0 h1 = 0#16 then
      proceed { d with
        live := .readingChecksum []
        msg := { withHeader d.msg h0 h1 h2 h3 h4 b with payload := [] }
        acc := addByte d.acc b }
    else .refused .notSelected
  | _ => .refused .notSelected

/-- `HDR.ENDN` (R92): `PB` becomes live, empty. -/
def opHdrEndN (b : Byte) (d : Pfd) : Performed :=
  match d.live with
  | .readingHeader [h0, h1, h2, h3, h4] =>
    if le16 h0 h1 = 0#16 then .refused .notSelected
    else
      proceed { d with
        live := .readingPayload []
        msg := withHeader d.msg h0 h1 h2 h3 h4 b
        acc := addByte d.acc b }
  | _ => .refused .notSelected

/-- `HDR.ACC`. -/
def execHdrAcc (b : Byte) (s : State) : Host.Outcome State Fault Refusal :=
  report (opHdrAcc b s.pfd) s

/-- `HDR.END0`. -/
def execHdrEnd0 (b : Byte) (s : State) : Host.Outcome State Fault Refusal :=
  report (opHdrEnd0 b s.pfd) s

/-- `HDR.ENDN`. -/
def execHdrEndN (b : Byte) (s : State) : Host.Outcome State Fault Refusal :=
  report (opHdrEndN b s.pfd) s

end Sys2Proof.Machine
end

