-- ==== Sys2Proof/Machine/Payload.lean ====
section
/-! DEFINITION. Payload accumulation (`43_payload.md` R100, R101). -/

namespace Sys2Proof.Machine

/-- `PAY.ACC` (R100): `MemWrite(PB, PCNT, 1, b)`. -/
def opPayAcc (b : Byte) (d : Pfd) : Performed :=
  match d.live with
  | .readingPayload pb =>
    if pb.length + 1 = d.msg.payloadLength.toNat then .refused .notSelected
    else proceed { d with live := .readingPayload (Memory.append pb b), acc := addByte d.acc b }
  | _ => .refused .notSelected

/-- `PAY.END` (R101): the full buffer moves into `MSG.payload`. -/
def opPayEnd (b : Byte) (d : Pfd) : Performed :=
  match d.live with
  | .readingPayload pb =>
    if pb.length + 1 = d.msg.payloadLength.toNat then
      proceed { d with
        live := .readingChecksum []
        msg := { d.msg with payload := Memory.append pb b }
        acc := addByte d.acc b }
    else .refused .notSelected
  | _ => .refused .notSelected

/-- `PAY.ACC`. -/
def execPayAcc (b : Byte) (s : State) : Host.Outcome State Fault Refusal :=
  report (opPayAcc b s.pfd) s

/-- `PAY.END`. -/
def execPayEnd (b : Byte) (s : State) : Host.Outcome State Fault Refusal :=
  report (opPayEnd b s.pfd) s

end Sys2Proof.Machine
end

