-- ==== Sys2Proof/Machine/Sync.lean ====
section
/-! DEFINITION. Start detection (`41_sync.md` R80 to R83). -/

namespace Sys2Proof.Machine

/-- `S1.HIT` (R80). -/
def opS1Hit (P : Config.Params) (d : Pfd) : Performed :=
  match d.live with
  | .awaitingStart1 => proceed { d with live := .awaitingStart2, acc := zext16 P.magic0 }
  | _ => .refused .notSelected

/-- `S1.MISS` (R81): no state element is written. -/
def opS1Miss (P : Config.Params) (b : Byte) (d : Pfd) : Performed :=
  match d.live with
  | .awaitingStart1 => if b = P.magic0 then .refused .notSelected else raise .invalidStartByte d
  | _ => .refused .notSelected

/-- `S2.HIT` (R82). -/
def opS2Hit (P : Config.Params) (d : Pfd) : Performed :=
  match d.live with
  | .awaitingStart2 => proceed { d with live := .readingHeader [], acc := addByte d.acc P.magic1 }
  | _ => .refused .notSelected

/-- `S2.MISS` (R83). -/
def opS2Miss (P : Config.Params) (b : Byte) (d : Pfd) : Performed :=
  match d.live with
  | .awaitingStart2 =>
    if b = P.magic1 then .refused .notSelected
    else raise .invalidStartByte { d with live := .awaitingStart1, acc := 0#16 }
  | _ => .refused .notSelected

/-- `S1.HIT`, for this hardware's parameters. -/
def execS1Hit (s : State) : Host.Outcome State Fault Refusal :=
  report (opS1Hit Config.params s.pfd) s

/-- `S1.MISS`, for this hardware's parameters. -/
def execS1Miss (b : Byte) (s : State) : Host.Outcome State Fault Refusal :=
  report (opS1Miss Config.params b s.pfd) s

/-- `S2.HIT`, for this hardware's parameters. -/
def execS2Hit (s : State) : Host.Outcome State Fault Refusal :=
  report (opS2Hit Config.params s.pfd) s

/-- `S2.MISS`, for this hardware's parameters. -/
def execS2Miss (b : Byte) (s : State) : Host.Outcome State Fault Refusal :=
  report (opS2Miss Config.params b s.pfd) s

end Sys2Proof.Machine
end

