-- ==== Sys2Proof/Machine/Trailer.lean ====
section
/-! DEFINITION. Trailer and finalization (`44_trailer.md` R110 to R112). -/

namespace Sys2Proof.Machine

/-- `CK.ACC` (R110): `ACC` is not updated. -/
def opCkAcc (b : Byte) (d : Pfd) : Performed :=
  match d.live with
  | .readingChecksum cb =>
    if cb.length = 1 then .refused .notSelected
    else proceed { d with live := .readingChecksum (cb ++ [b]) }
  | _ => .refused .notSelected

/-- `CK.OK` (R111). -/
def opCkOk (P : Config.Params) (b : Byte) (d : Pfd) : Performed :=
  match d.live with
  | .readingChecksum [c0] =>
    let m := withTrailer d.msg c0 b
    if valid P m then .next (finalize .success m d, .success m) else .refused .notSelected
  | _ => .refused .notSelected

/-- `CK.BAD` (R112): the error carries the whole message. -/
def opCkBad (P : Config.Params) (b : Byte) (d : Pfd) : Performed :=
  match d.live with
  | .readingChecksum [c0] =>
    let m := withTrailer d.msg c0 b
    if valid P m then .refused .notSelected else raise (.checksumError m) (finalize .checksumError m d)
  | _ => .refused .notSelected

/-- `CK.ACC`. -/
def execCkAcc (b : Byte) (s : State) : Host.Outcome State Fault Refusal :=
  report (opCkAcc b s.pfd) s

/-- `CK.OK`, for this hardware's parameters. -/
def execCkOk (b : Byte) (s : State) : Host.Outcome State Fault Refusal :=
  report (opCkOk Config.params b s.pfd) s

/-- `CK.BAD`, for this hardware's parameters. -/
def execCkBad (b : Byte) (s : State) : Host.Outcome State Fault Refusal :=
  report (opCkBad Config.params b s.pfd) s

end Sys2Proof.Machine
end

