-- ==== Sys2Proof/Machine/System.lean ====
section
/-! DEFINITION. The system operations (`45_system.md`): `STEP` (R120), `RESET` (R122), `FEED` (R123). -/

namespace Sys2Proof.Machine

/-- What the block does for an operation of R58. The others are not the block's. -/
def perform (P : Config.Params) (i : Instr) (d : Pfd) : Performed :=
  match i with
  | .s1Hit => opS1Hit P d
  | .s1Miss b => opS1Miss P b d
  | .s2Hit => opS2Hit P d
  | .s2Miss b => opS2Miss P b d
  | .hdrAcc b => opHdrAcc b d
  | .hdrEnd0 b => opHdrEnd0 b d
  | .hdrEndN b => opHdrEndN b d
  | .payAcc b => opPayAcc b d
  | .payEnd b => opPayEnd b d
  | .ckAcc b => opCkAcc b d
  | .ckOk b => opCkOk P b d
  | .ckBad b => opCkBad P b d
  | .reset | .cksum _ | .valid _ | .length _ | .setcrc _ | .serialize _ => .refused .notInput
  | .step _ | .feed _ | .frame .. | .framex .. | .noise _ => .refused .notInput

/-- `STEP(b)` (R120): form the dispatch word and perform the first matching row. -/
def acceptByte (P : Config.Params) (d : Pfd) (b : Byte) : Performed :=
  match select P d b with
  | .next i => perform P i d
  | .fault f => .fault f
  | .refused r => .refused r

/-- `RESET` (R122), from any state whatever. -/
def resetPfd (_d : Pfd) : Pfd := Pfd.initial

/-- The loop of `FEED` (R123), `n` bytes being consumed already. -/
def feedLoop (P : Config.Params) : List Byte → Nat → Pfd →
    Host.Outcome (Pfd × Result × Nat) Fault Refusal
  | [], n, d => .next (d, .inProgress, n)
  | b :: bs, n, d =>
    match acceptByte P d b with
    | .next (d', .inProgress) => feedLoop P bs (n + 1) d'
    | .next (d', r) => .next (d', r, n + 1)
    | .fault f => .fault f
    | .refused r => .refused r

/-- Bytes presented one per step with no stop between them: the block after them and their results in
order (R42, R121). -/
def acceptBytes (P : Config.Params) : Pfd → List Byte → Host.Outcome (Pfd × List Result) Fault Refusal
  | d, [] => .next (d, [])
  | d, b :: bs =>
    match acceptByte P d b with
    | .next (d', r) =>
      match acceptBytes P d' bs with
      | .next (e, rs) => .next (e, r :: rs)
      | .fault f => .fault f
      | .refused x => .refused x
    | .fault f => .fault f
    | .refused x => .refused x

/-- `STEP(b)`. -/
def execStep (b : Byte) (s : State) : Host.Outcome State Fault Refusal :=
  report (acceptByte Config.params s.pfd b) s

/-- `RESET`: no `Result` is produced (R122). -/
def execReset (s : State) : Host.Outcome State Fault Refusal :=
  .next { s with pfd := resetPfd s.pfd, result := none }

/-- `FEED(s)`: the host gets the last `Result` and the number of bytes consumed. Where no byte is consumed
the result port keeps what it reports (DESIGN CHOICE, log entry 13). -/
def execFeed (bs : List Byte) (s : State) : Host.Outcome State Fault Refusal :=
  match feedLoop Config.params bs 0 s.pfd with
  | .next (d, r, n) =>
    .next { s with
      pfd := d
      result := if n = 0 then s.result else some r
      value := some (.fed r n) }
  | .fault f => .fault f
  | .refused r => .refused r

end Sys2Proof.Machine
end

