-- ==== Sys2Proof/Machine/Dispatch.lean ====
section
/-! DEFINITION. One arm for every operation. -/

namespace Sys2Proof.Machine

/-- The meaning of an operation. -/
def exec (i : Instr) (s : State) : Host.Outcome State Fault Refusal :=
  match i with
  -- start detection (R80 to R83)
  | .s1Hit => Sys2Proof.Machine.execS1Hit s
  | .s1Miss b => Sys2Proof.Machine.execS1Miss b s
  | .s2Hit => Sys2Proof.Machine.execS2Hit s
  | .s2Miss b => Sys2Proof.Machine.execS2Miss b s
  -- header (R90 to R92)
  | .hdrAcc b => Sys2Proof.Machine.execHdrAcc b s
  | .hdrEnd0 b => Sys2Proof.Machine.execHdrEnd0 b s
  | .hdrEndN b => Sys2Proof.Machine.execHdrEndN b s
  -- payload (R100, R101)
  | .payAcc b => Sys2Proof.Machine.execPayAcc b s
  | .payEnd b => Sys2Proof.Machine.execPayEnd b s
  -- trailer (R110 to R112)
  | .ckAcc b => Sys2Proof.Machine.execCkAcc b s
  | .ckOk b => Sys2Proof.Machine.execCkOk b s
  | .ckBad b => Sys2Proof.Machine.execCkBad b s
  -- the reset pin (R122)
  | .reset => Sys2Proof.Machine.execReset s
  -- functions (R70, R71, R73, R130, R131)
  | .cksum m => Sys2Proof.Machine.execCksum m s
  | .valid m => Sys2Proof.Machine.execValid m s
  | .length m => Sys2Proof.Machine.execLength m s
  | .setcrc m => Sys2Proof.Machine.execSetcrc m s
  | .serialize m => Sys2Proof.Machine.execSerialize m s
  -- pseudo-operations (R120, R123, R65)
  | .step b => Sys2Proof.Machine.execStep b s
  | .feed bs => Sys2Proof.Machine.execFeed bs s
  | .frame id src dst p => Sys2Proof.Machine.execFrame id src dst p s
  | .framex len id src dst p c => Sys2Proof.Machine.execFramex len id src dst p c s
  | .noise bs => Sys2Proof.Machine.execNoise bs s

end Sys2Proof.Machine
end

