-- ==== Sys2Proof/Machine/Fetch.lean ====
section
/-! DEFINITION. How the machine takes the next item of the input stream (`45_system.md` R120, R122; `20_memory.md`
R39, R42, R45), and how a given operation is made the next one. -/

namespace Sys2Proof.Machine

/-- What the next item of the stream asks for. -/
inductive Fetched where
  /-- nothing is presented: a cycle with `in_valid = 0` and `rst = 0`, or the end of the stream -/
  | idle
  | run (i : Instr)
  | stuck (f : Fault)
  | deny (r : Refusal)
  deriving DecidableEq, Repr

/-- A byte's operation is the one the dispatch word selects (R58). -/
def fetchByte (P : Config.Params) (d : Pfd) (b : Byte) : Fetched :=
  match select P d b with
  | .next i => .run i
  | .fault f => .stuck f
  | .refused r => .deny r

/-- One clock cycle (section 1): `rst` wins over a byte (R122 (b), R147); a cycle with neither is idle. -/
def fetchCycle (P : Config.Params) (d : Pfd) (p : PortIn) : Fetched :=
  if p.rst then .run .reset
  else if p.inValid then fetchByte P d p.inData
  else .idle

/-- The next item. The host never names one of the operations of R58 (R64). -/
def fetch (P : Config.Params) (s : State) : Fetched :=
  match s.input with
  | [] => .idle
  | .cycle p :: _ => fetchCycle P s.pfd p
  | .call i :: _ => if i.dispatched then .deny .notInput else .run i

/-- The state an item's operation runs in: the item is consumed (R39), no `Result` is reported yet (R121),
and the free values move on. -/
def consume (s : State) : State :=
  { s with result := none, input := s.input.tail, draw := s.draw + 1 }

/-- The byte whose acceptance is the operation. -/
def acceptedByte (P : Config.Params) : Instr → Option Byte
  | .s1Hit => some P.magic0
  | .s2Hit => some P.magic1
  | .s1Miss b | .s2Miss b | .hdrAcc b | .hdrEnd0 b | .hdrEndN b | .payAcc b | .payEnd b => some b
  | .ckAcc b | .ckOk b | .ckBad b => some b
  | .reset | .cksum _ | .valid _ | .length _ | .setcrc _ | .serialize _ => none
  | .step _ | .feed _ | .frame .. | .framex .. | .noise _ => none

/-- A decoder part in which the operation's byte selects it; each is one that a run from `RESET` can reach.
`RES` is kept. -/
def awaiting (P : Config.Params) (i : Instr) (d : Pfd) : Pfd :=
  let start : Pfd := { Pfd.initial with res := d.res }
  let inHeader (hb : List Byte) : Pfd :=
    { start with live := .readingHeader hb, acc := addBytes 0#16 ([P.magic0, P.magic1] ++ hb) }
  let inPayload (len : U16) : Pfd :=
    let m : Message := { initialMessage with payloadLength := len }
    { start with live := .readingPayload [], msg := m, acc := cksum P m }
  let inTrailer (cb : List Byte) (m : Message) : Pfd :=
    { start with live := .readingChecksum cb, msg := m, acc := cksum P m }
  match i with
  | .s1Hit | .s1Miss _ => start
  | .s2Hit | .s2Miss _ => { start with live := .awaitingStart2, acc := zext16 P.magic0 }
  | .hdrAcc _ => inHeader []
  | .hdrEnd0 _ => inHeader [0#8, 0#8, 0#8, 0#8, 0#8]
  | .hdrEndN _ => inHeader [1#8, 0#8, 0#8, 0#8, 0#8]
  | .payAcc _ => inPayload 2#16
  | .payEnd _ => inPayload 1#16
  | .ckAcc _ => inTrailer [] initialMessage
  -- `b` bytes of `0xFF` add `256 * b` together with the length byte `b`: with the low trailer byte of the
  -- empty message the high trailer byte is short by `b` less that message's own high byte
  | .ckOk b =>
    let n := (b - hi8 (cksum P initialMessage)).toNat
    let m : Message :=
      { initialMessage with payloadLength := BitVec.ofNat 16 n, payload := List.replicate n 0xFF#8 }
    inTrailer [lo8 (cksum P m)] m
  | .ckBad _ => inTrailer [lo8 (cksum P initialMessage) + 1#8] initialMessage
  | .reset | .cksum _ | .valid _ | .length _ | .setcrc _ | .serialize _ => d
  | .step _ | .feed _ | .frame .. | .framex .. | .noise _ => d

/-- The block as it is where the byte selects the operation already, else `awaiting`. -/
def readyFor (P : Config.Params) (i : Instr) (b : Byte) (d : Pfd) : Pfd :=
  if fetchByte P d b = .run i then d else awaiting P i d

/-- The state whose next step runs the operation: its byte stands first in the stream and the block awaits
it (DESIGN CHOICE, log entry 11). An operation no byte selects is put first as a host call, `RESET` as its pin. -/
def presentInstr (P : Config.Params) (i : Instr) (s : State) : State :=
  match acceptedByte P i with
  | some b => { s with pfd := readyFor P i b s.pfd, input := .byte b :: s.input }
  | none =>
    match i with
    | .reset => { s with input := .rst :: s.input }
    | _ => { s with input := .call i :: s.input }

end Sys2Proof.Machine
end

