-- ==== Sys2Proof/Machine/Listing.lean ====
section
/-! DEFINITION. The whole step as the one listing of `45_system.md` R126, written without the dispatch word. The
machine does not call it: it is the second description that the dispatched operations are held to. -/

namespace Sys2Proof.Machine

/-- `STEP(b)` as R126 lists it. -/
def stepListing (P : Config.Params) (d : Pfd) (b : Byte) : Performed :=
  match d.live with
  | .awaitingStart1 =>
    if b = P.magic0 then
      .next ({ d with live := .awaitingStart2, acc := zext16 P.magic0 }, .inProgress)
    else .next (d, .error .invalidStartByte)
  | .awaitingStart2 =>
    if b = P.magic1 then
      .next ({ d with live := .readingHeader [], acc := d.acc + zext16 P.magic1 }, .inProgress)
    else .next ({ d with live := .awaitingStart1, acc := 0#16 }, .error .invalidStartByte)
  | .readingHeader hb =>
    let acc := d.acc + zext16 b
    match hb ++ [b] with
    | [h0, h1, h2, h3, h4, h5] =>
      let m : Message :=
        { d.msg with
          payloadLength := le16 h0 h1
          messageId := le16 h2 h3
          srcDeviceId := h4
          dstDeviceId := h5 }
      if m.payloadLength = 0#16 then
        .next ({ d with live := .readingChecksum [], msg := { m with payload := [] }, acc := acc },
          .inProgress)
      else .next ({ d with live := .readingPayload [], msg := m, acc := acc }, .inProgress)
    | hb' => .next ({ d with live := .readingHeader hb', acc := acc }, .inProgress)
  | .readingPayload pb =>
    let acc := d.acc + zext16 b
    let pb' := pb ++ [b]
    if pb'.length = d.msg.payloadLength.toNat then
      .next ({ d with live := .readingChecksum [], msg := { d.msg with payload := pb' }, acc := acc },
        .inProgress)
    else .next ({ d with live := .readingPayload pb', acc := acc }, .inProgress)
  | .readingChecksum cb =>
    match cb ++ [b] with
    | c0 :: c1 :: _ =>
      let m : Message := { d.msg with checksum := le16 c0 c1 }
      let ok : Bool := m.checksum = cksum P m
      let d' : Pfd :=
        { live := .awaitingStart1
          msg := initialMessage
          acc := 0#16
          res := some ⟨if ok then .success else .checksumError, m⟩ }
      .next (d', if ok then .success m else .error (.checksumError m))
    | cb' => .next ({ d with live := .readingChecksum cb' }, .inProgress)
  | .unassigned _ => .fault .stuckPhase
  | .powerUp => .refused .neverReset

end Sys2Proof.Machine
end

