-- ==== Sys2Proof/Machine/Ports.lean ====
section
/-! DEFINITION. The output ports (`45_system.md` section 1, R121, R124), as functions of the state: reading them
changes nothing (`20_memory.md` R32; DESIGN CHOICE, log entry 17). -/

namespace Sys2Proof.Machine

/-- The output ports, and `msg_rd_data` for the index on `msg_rd_addr`. -/
structure PortOut where
  inReady          : Bool
  resValid         : Bool
  resKind          : Code
  msgValid         : Bool
  msgKind          : Code
  msgPayloadLength : U16
  msgMessageId     : U16
  msgSrcDeviceId   : Byte
  msgDstDeviceId   : Byte
  msgChecksum      : U16
  msgRdData        : Byte
  deriving DecidableEq, Repr

/-- `res_valid` (R121). -/
def resValidPort (s : State) : Bool :=
  match s.pfd.live with
  | .powerUp => Config.freeResValid s.draw
  | _ => s.result.isSome

/-- `res_kind` (R121): a free value with `res_valid = 0` (U16). -/
def resKindPort (P : Config.Params) (s : State) : Code :=
  match s.pfd.live, s.result with
  | .powerUp, _ => Config.freeResKind s.draw
  | _, some r => r.code P.codes
  | _, none => Config.freeResKind s.draw

/-- `RES` as the `msg_*` ports show it: nothing before the first `RESET` (R160). -/
def shownRes (s : State) : Option ResBank :=
  match s.pfd.live with
  | .powerUp => none
  | _ => s.pfd.res

/-- `msg_valid` (R124). -/
def msgValidPort (s : State) : Bool :=
  match s.pfd.live with
  | .powerUp => Config.freeMsgValid s.draw
  | _ => s.pfd.res.isSome

/-- `msg_rd_data` (R124, R32): a free value where no byte is readable (U4, U5). -/
def msgRdDataPort (s : State) (a : U16) : Byte :=
  match shownRes s with
  | some _ => (s.pfd.readRes a.toNat).getD (Config.freePayloadByte s.draw a.toNat)
  | none => Config.freePayloadByte s.draw a.toNat

/-- All output ports, with `a` on `msg_rd_addr`. `in_ready` is constant 1 (R120). -/
def portsOut (P : Config.Params) (s : State) (a : U16) : PortOut :=
  let shown := shownRes s
  { inReady := true
    resValid := resValidPort s
    resKind := resKindPort P s
    msgValid := msgValidPort s
    msgKind := (shown.map fun r => r.kind.code P.codes).getD (Config.freeMsgKind s.draw)
    msgPayloadLength := (shown.map fun r => r.msg.payloadLength).getD (Config.freePayloadLength s.draw)
    msgMessageId := (shown.map fun r => r.msg.messageId).getD (Config.freeMessageId s.draw)
    msgSrcDeviceId := (shown.map fun r => r.msg.srcDeviceId).getD (Config.freeSrcDeviceId s.draw)
    msgDstDeviceId := (shown.map fun r => r.msg.dstDeviceId).getD (Config.freeDstDeviceId s.draw)
    msgChecksum := (shown.map fun r => r.msg.checksum).getD (Config.freeChecksum s.draw)
    msgRdData := msgRdDataPort s a }

end Sys2Proof.Machine
end

