-- ==== Sys2Proof/Machine/Step.lean ====
section
/-! DEFINITION. One step of the machine: it takes the next item of the input stream and runs what that asks for. -/

namespace Sys2Proof.Machine

/-- One step. With nothing presented only the result port falls idle (R120, R121). -/
def step (s : State) : Host.Outcome State Fault Refusal :=
  match fetch Config.params s with
  | .idle => .next (consume s)
  | .run i => exec i (consume s)
  | .stuck f => .fault f
  | .deny r => .refused r

/-- The state whose next step runs the operation that the table's word `w` selects. -/
def State.withFetchWord (s : State) (nbits w : Nat) : State :=
  match decodeTableWord nbits w with
  | some i => presentInstr Config.params i s
  | none => s

end Sys2Proof.Machine
end

