-- ==== Sys2Proof/Safety.lean ====
section
/-! DEFINITION. The invariants of `10_state.md` R20 and what a safe machine is. -/

namespace Sys2Proof.Machine

/-- R20, row by row: what holds at rest in each phase. A run from `RESET` meets none of the last two. -/
def Pfd.phaseInv (P : Config.Params) (d : Pfd) : Prop :=
  match d.live with
  | .awaitingStart1 => True
  | .awaitingStart2 => d.acc = zext16 P.magic0
  | .readingHeader hb =>
    hb.length ≤ 5 ∧ d.acc = addBytes 0#16 ([P.magic0, P.magic1] ++ hb)
  | .readingPayload pb =>
    1 ≤ d.msg.payloadLength.toNat ∧ pb.length < d.msg.payloadLength.toNat ∧
      d.acc = addBytes 0#16 (summedBytes P { d.msg with payload := pb })
  | .readingChecksum cb =>
    d.msg.payload.length = d.msg.payloadLength.toNat ∧ cb.length ≤ 1 ∧ d.acc = cksum P d.msg
  | .unassigned _ => False
  | .powerUp => False

/-- What the elements that are dead in a phase hold all the same, because the rules assign them there (R19,
R26, R83, R113, R122). -/
def Pfd.deadInv (d : Pfd) : Prop :=
  match d.live with
  | .awaitingStart1 => d.msg = initialMessage ∧ d.acc = 0#16
  | .awaitingStart2 | .readingHeader _ => d.msg = initialMessage
  | .readingPayload _ => d.msg.payload = [] ∧ d.msg.checksum = 0#16
  | .readingChecksum _ => d.msg.checksum = 0#16
  | .unassigned _ | .powerUp => True

/-- R20's last row: what `RES.valid = 1` says of the bank. -/
def Pfd.resInv (P : Config.Params) (d : Pfd) : Prop :=
  ∀ r, d.res = some r →
    r.msg.payload.length = r.msg.payloadLength.toNat ∧
      (r.kind = .success ↔ r.msg.checksum = cksum P r.msg)

/-- The block's invariant (R20). -/
structure Pfd.Inv (P : Config.Params) (d : Pfd) : Prop where
  phase : d.phaseInv P
  dead  : d.deadInv
  bank  : d.resInv P

/-- What the result port says agrees with `RES` (R121), and the reserved kind is never reported (R60). -/
def State.reportInv (s : State) : Prop :=
  (∀ m, s.result = some (.success m) → s.pfd.res = some ⟨.success, m⟩) ∧
  (∀ m, s.result = some (.error (.checksumError m)) → s.pfd.res = some ⟨.checksumError, m⟩) ∧
  s.result ≠ some (.error .incompleteData)

/-- The machine's invariant. -/
structure State.Inv (P : Config.Params) (s : State) : Prop where
  block  : s.pfd.Inv P
  report : s.reportInv

/-- The host presents only what it may present (R125): cycles, and well-formed calls. -/
def State.hostWf (P : Config.Params) (s : State) : Prop :=
  ∀ x ∈ s.input, x.wf P = true

/-- A safe machine: the invariant holds and the host keeps to its side. -/
structure State.Safe (s : State) : Prop where
  inv  : s.Inv Config.params
  host : s.hostWf Config.params

/-- A phase the block can be in once it has been reset: one of the five of R11. -/
def Live.assigned : Live → Prop
  | .awaitingStart1 | .awaitingStart2 => True
  | .readingHeader _ | .readingPayload _ | .readingChecksum _ => True
  | .unassigned _ | .powerUp => False

/-- A result that finalizes a frame (R113). -/
def Result.finalizes : Result → Prop
  | .success _ | .error (.checksumError _) => True
  | .inProgress | .error .invalidStartByte | .error .incompleteData => False

end Sys2Proof.Machine
end

