-- ==== Sys2Proof/Certificates/Slice0/Obligations.lean ====
section
/-! DEFINITION. The statements about the model, each with the rule of the spec it formalises. A statement over a
`Config.Params` holds for every pair of magic bytes (`00_scope.md` R6); one about `exec` or `step` is about
this hardware's. What a statement says of the machine's own fields (the result port `result`, the stream `input`,
the host's `value`, the counter `draw`) is the model's, no rule's (log entries 5 to 7); so is what it says of `MSG`
and `ACC` in a phase in which they are dead and no rule assigns them (log entry 3).
"The spec derives it" marks what the spec itself gives as a consequence of its rules. -/

open Sys2Proof Sys2Proof.Machine

/-! ### Reset -/

/-- R26: the values after `RESET`. -/
def Obligations.ResetStateIsTheFreshDecoder : Prop :=
  State.reset.pfd.live = .awaitingStart1 ∧
  State.reset.pfd.msg.payloadLength = 0x0000#16 ∧ State.reset.pfd.msg.messageId = 0x0000#16 ∧
  State.reset.pfd.msg.checksum = 0x0000#16 ∧ State.reset.pfd.msg.srcDeviceId = 0x00#8 ∧
  State.reset.pfd.msg.dstDeviceId = 0x00#8 ∧ State.reset.pfd.msg.payload = [] ∧
  State.reset.pfd.acc = 0x0000#16 ∧ State.reset.pfd.resValid = false

/-- R122: `RESET` gives the fresh decoder from every state, one that was never reset (R160) and one with an
unassigned phase code (U6) included; no `Result` is produced and the host's side is as it was. -/
def Obligations.ResetRestoresTheFreshDecoder : Prop :=
  ∀ s : State,
    exec .reset s = .next { s with
      pfd := { live := .awaitingStart1, msg := ⟨0#16, 0#16, 0#8, 0#8, [], 0#16⟩, acc := 0#16, res := none }
      result := none }

/-! ### The twelve operations of a byte: which state and byte select each, and what it writes -/

/-- R80, `S1.HIT`. -/
def Obligations.S1HitTakesTheFirstMagicByte : Prop :=
  ∀ s : State, s.pfd.live = .awaitingStart1 →
    select Config.params s.pfd Config.params.magic0 = .next .s1Hit ∧
    exec .s1Hit s = .next { s with
      pfd := { s.pfd with live := .awaitingStart2, acc := Config.params.magic0.setWidth 16 }
      result := some .inProgress }

/-- R81, `S1.MISS`: the whole block is as before. -/
def Obligations.S1MissChangesNothing : Prop :=
  ∀ (s : State) (b : Byte), s.pfd.live = .awaitingStart1 → b ≠ Config.params.magic0 →
    select Config.params s.pfd b = .next (.s1Miss b) ∧
    exec (.s1Miss b) s = .next { s with result := some (.error .invalidStartByte) }

/-- R82, `S2.HIT`. -/
def Obligations.S2HitOpensTheHeader : Prop :=
  ∀ s : State, s.pfd.live = .awaitingStart2 →
    select Config.params s.pfd Config.params.magic1 = .next .s2Hit ∧
    exec .s2Hit s = .next { s with
      pfd := { s.pfd with
        live := .readingHeader []
        acc := s.pfd.acc + Config.params.magic1.setWidth 16 }
      result := some .inProgress }

/-- R83, `S2.MISS`. -/
def Obligations.S2MissFallsBack : Prop :=
  ∀ (s : State) (b : Byte), s.pfd.live = .awaitingStart2 → b ≠ Config.params.magic1 →
    select Config.params s.pfd b = .next (.s2Miss b) ∧
    exec (.s2Miss b) s = .next { s with
      pfd := { s.pfd with live := .awaitingStart1, acc := 0#16 }
      result := some (.error .invalidStartByte) }

/-- R90, `HDR.ACC`: every byte value is accepted. -/
def Obligations.HdrAccAppendsTheByte : Prop :=
  ∀ (s : State) (b : Byte) (hb : List Byte), s.pfd.live = .readingHeader hb → hb.length ≤ 4 →
    select Config.params s.pfd b = .next (.hdrAcc b) ∧
    exec (.hdrAcc b) s = .next { s with
      pfd := { s.pfd with live := .readingHeader (hb ++ [b]), acc := s.pfd.acc + b.setWidth 16 }
      result := some .inProgress }

/-- R91, `HDR.END0`: the header is parsed (R52) and the payload phase is skipped. -/
def Obligations.HdrEnd0SkipsThePayload : Prop :=
  ∀ (s : State) (b h0 h1 h2 h3 h4 : Byte), s.pfd.live = .readingHeader [h0, h1, h2, h3, h4] →
    (h1 ++ h0 : U16) = 0#16 →
    select Config.params s.pfd b = .next (.hdrEnd0 b) ∧
    exec (.hdrEnd0 b) s = .next { s with
      pfd := { s.pfd with
        live := .readingChecksum []
        msg := { s.pfd.msg with
          payloadLength := h1 ++ h0
          messageId := h3 ++ h2
          srcDeviceId := h4
          dstDeviceId := b
          payload := [] }
        acc := s.pfd.acc + b.setWidth 16 }
      result := some .inProgress }

/-- R92, `HDR.ENDN`: the header is parsed (R52) and `PB` becomes live, empty; no length is refused (R63). -/
def Obligations.HdrEndNOpensThePayload : Prop :=
  ∀ (s : State) (b h0 h1 h2 h3 h4 : Byte), s.pfd.live = .readingHeader [h0, h1, h2, h3, h4] →
    (h1 ++ h0 : U16) ≠ 0#16 →
    select Config.params s.pfd b = .next (.hdrEndN b) ∧
    exec (.hdrEndN b) s = .next { s with
      pfd := { s.pfd with
        live := .readingPayload []
        msg := { s.pfd.msg with
          payloadLength := h1 ++ h0
          messageId := h3 ++ h2
          srcDeviceId := h4
          dstDeviceId := b }
        acc := s.pfd.acc + b.setWidth 16 }
      result := some .inProgress }

/-- R100, `PAY.ACC`. -/
def Obligations.PayAccAppendsTheByte : Prop :=
  ∀ (s : State) (b : Byte) (pb : Memory), s.pfd.live = .readingPayload pb →
    pb.length + 1 < s.pfd.msg.payloadLength.toNat →
    select Config.params s.pfd b = .next (.payAcc b) ∧
    exec (.payAcc b) s = .next { s with
      pfd := { s.pfd with live := .readingPayload (pb ++ [b]), acc := s.pfd.acc + b.setWidth 16 }
      result := some .inProgress }

/-- R101, `PAY.END`: the full buffer moves into the message. -/
def Obligations.PayEndMovesTheBuffer : Prop :=
  ∀ (s : State) (b : Byte) (pb : Memory), s.pfd.live = .readingPayload pb →
    pb.length + 1 = s.pfd.msg.payloadLength.toNat →
    select Config.params s.pfd b = .next (.payEnd b) ∧
    exec (.payEnd b) s = .next { s with
      pfd := { s.pfd with
        live := .readingChecksum []
        msg := { s.pfd.msg with payload := pb ++ [b] }
        acc := s.pfd.acc + b.setWidth 16 }
      result := some .inProgress }

/-- R110, `CK.ACC`: `ACC` is not updated. -/
def Obligations.CkAccKeepsTheLowByte : Prop :=
  ∀ (s : State) (b : Byte), s.pfd.live = .readingChecksum [] →
    select Config.params s.pfd b = .next (.ckAcc b) ∧
    exec (.ckAcc b) s = .next { s with
      pfd := { s.pfd with live := .readingChecksum [b] }
      result := some .inProgress }

/-- R111 with R113, `CK.OK`: the message moves to `RES` and the decoder part is reset to initial. -/
def Obligations.CkOkDeliversTheMessage : Prop :=
  ∀ (s : State) (b c0 : Byte), s.pfd.live = .readingChecksum [c0] →
    (b ++ c0 : U16) = cksum Config.params s.pfd.msg →
    select Config.params s.pfd b = .next (.ckOk b) ∧
    exec (.ckOk b) s = .next { s with
      pfd := {
        live := .awaitingStart1
        msg := ⟨0#16, 0#16, 0#8, 0#8, [], 0#16⟩
        acc := 0#16
        res := some ⟨.success, { s.pfd.msg with checksum := b ++ c0 }⟩ }
      result := some (.success { s.pfd.msg with checksum := b ++ c0 }) }

/-- R112 with R113, `CK.BAD`: the error carries the whole message, with the checksum as received. -/
def Obligations.CkBadDeliversTheMessage : Prop :=
  ∀ (s : State) (b c0 : Byte), s.pfd.live = .readingChecksum [c0] →
    (b ++ c0 : U16) ≠ cksum Config.params s.pfd.msg →
    select Config.params s.pfd b = .next (.ckBad b) ∧
    exec (.ckBad b) s = .next { s with
      pfd := {
        live := .awaitingStart1
        msg := ⟨0#16, 0#16, 0#8, 0#8, [], 0#16⟩
        acc := 0#16
        res := some ⟨.checksumError, { s.pfd.msg with checksum := b ++ c0 }⟩ }
      result := some (.error (.checksumError { s.pfd.msg with checksum := b ++ c0 })) }

/-! ### The functions -/

/-- R70: `CKSUM` is the sum of the zero-extended bytes, in integers, modulo 65536; it runs on every
message and changes only the host's value. -/
def Obligations.CksumIsTheSumModulo65536 : Prop :=
  ∀ (m : Message) (s : State), ∃ c : U16,
    exec (.cksum m) s = .next { s with value := some (.word c) } ∧
    c.toNat =
      (0x42 + 0x52 + m.payloadLength.toNat % 256 + m.payloadLength.toNat / 256 +
        m.messageId.toNat % 256 + m.messageId.toNat / 256 +
        m.srcDeviceId.toNat + m.dstDeviceId.toNat + (m.payload.map BitVec.toNat).sum) % 65536

/-- R71: `VALID` is equality with `CKSUM`, on every message. -/
def Obligations.ValidComparesWithCksum : Prop :=
  ∀ (m : Message) (s : State), ∃ c : U16,
    exec (.cksum m) s = .next { s with value := some (.word c) } ∧
    exec (.valid m) s = .next { s with value := some (.bit (decide (m.checksum = c))) }

/-- R73: `LENGTH` is `10 + payload_length`, without wrap. -/
def Obligations.LengthIsTenPlusThePayloadLength : Prop :=
  ∀ (m : Message) (s : State), ∃ n : U17,
    exec (.length m) s = .next { s with value := some (.size n) } ∧
    n.toNat = 10 + m.payloadLength.toNat

/-- R130: `SETCRC` sets the checksum to `CKSUM`; the result is valid, and `SETCRC` is idempotent. -/
def Obligations.SetcrcMakesTheMessageValid : Prop :=
  ∀ (m : Message) (s : State), ∃ c : U16,
    exec (.cksum m) s = .next { s with value := some (.word c) } ∧
    exec (.setcrc m) s = .next { s with value := some (.message { m with checksum := c }) } ∧
    exec (.valid { m with checksum := c }) s = .next { s with value := some (.bit true) } ∧
    exec (.setcrc { m with checksum := c }) s =
      .next { s with value := some (.message { m with checksum := c }) }

/-- R131: `SERIALIZE` of a complete message is its frame, `LENGTH(M)` bytes long; of another it is refused
(U8). -/
def Obligations.SerializeWritesTheFrame : Prop :=
  ∀ (m : Message) (s : State),
    (m.payload.length = m.payloadLength.toNat → ∃ bs : List Byte,
      exec (.serialize m) s = .next { s with value := some (.bytes bs) } ∧
      bs = [0x42#8, 0x52#8, m.payloadLength.extractLsb' 0 8, m.payloadLength.extractLsb' 8 8,
          m.messageId.extractLsb' 0 8, m.messageId.extractLsb' 8 8, m.srcDeviceId, m.dstDeviceId] ++
        m.payload ++ [m.checksum.extractLsb' 0 8, m.checksum.extractLsb' 8 8] ∧
      bs.length = (frameLength m).toNat) ∧
    (m.payload.length ≠ m.payloadLength.toNat → exec (.serialize m) s = .refused .incompleteMessage)

/-! ### The pseudo-operations -/

/-- R120: `STEP` is total in the five phases: every byte selects a well-formed operation, and `STEP` does what
that operation does. -/
def Obligations.StepPerformsTheSelectedOperation : Prop :=
  ∀ (s : State) (b : Byte), s.pfd.live.assigned → ∃ (i : Instr) (t : State),
    select Config.params s.pfd b = .next i ∧ i.dispatched = true ∧ i.wf Config.params = true ∧
    exec i s = .next t ∧ exec (.step b) s = .next t

/-- R123: `FEED` presents bytes one per step and stops after the first `Result` other than `InProgress`; the
host gets that `Result` and the count, or `InProgress` and the full length. The pair is the value field's
and the stream and the draw counter are as they were (log entries 6 and 7). -/
def Obligations.FeedStopsAtTheFirstResult : Prop :=
  ∀ (s : State) (bs : List Byte), s.pfd.live.assigned → ∃ (t : State) (r : Result) (n : Nat) (rs : List Result),
    exec (.feed bs) s = .next t ∧ t.value = some (.fed r n) ∧ t.input = s.input ∧ t.draw = s.draw ∧
    acceptBytes Config.params s.pfd (bs.take n) = .next (t.pfd, rs) ∧ rs.length = n ∧
    ((r = .inProgress ∧ n = bs.length ∧ ∀ x ∈ rs, x = .inProgress) ∨
      (r ≠ .inProgress ∧ 1 ≤ n ∧ n ≤ bs.length ∧ rs = List.replicate (n - 1) .inProgress ++ [r]))

/-- R65: `FRAME` stands for the bytes of a valid frame, `FRAMEX` for the layout with the length field and the
checksum given, `NOISE` for the bytes listed; each byte is one cycle of the stream. A payload that no u16
length can say makes `FRAME` refused (the model's choice, log entry 10). -/
def Obligations.PseudoOperationsExpandToTheirBytes : Prop :=
  ∀ (s : State) (len id c : U16) (src dst : Byte) (p : List Byte),
    (p.length ≤ 65535 → ∃ (n k : U16),
      n.toNat = p.length ∧ k = cksum Config.params ⟨n, id, src, dst, p, 0#16⟩ ∧
      exec (.frame id src dst p) s = .next { s with
        input := ([0x42#8, 0x52#8, n.extractLsb' 0 8, n.extractLsb' 8 8, id.extractLsb' 0 8,
            id.extractLsb' 8 8, src, dst] ++ p ++ [k.extractLsb' 0 8, k.extractLsb' 8 8]).map
          (fun b => Item.cycle ⟨false, true, b⟩) ++ s.input }) ∧
    (65535 < p.length → exec (.frame id src dst p) s = .refused .frameTooLong) ∧
    exec (.framex len id src dst p c) s = .next { s with
      input := ([0x42#8, 0x52#8, len.extractLsb' 0 8, len.extractLsb' 8 8, id.extractLsb' 0 8,
          id.extractLsb' 8 8, src, dst] ++ p ++ [c.extractLsb' 0 8, c.extractLsb' 8 8]).map
        (fun b => Item.cycle ⟨false, true, b⟩) ++ s.input } ∧
    exec (.noise p) s = .next { s with
      input := p.map (fun b => Item.cycle ⟨false, true, b⟩) ++ s.input }

/-! ### Frames -/

/-- The frame of the ten operations that return `InProgress` or `InvalidStartByte`: `RES` and every byte readable
from it, the stream, the host's value and the draw counter are unchanged (R18, R31, R33); `MSG` changes only
where the header or the payload is complete, its checksum field never, and `ACC` not in `S1.MISS` and
`CK.ACC` (R14, R17). -/
def Obligations.AccumulatingOperationsLeaveResAlone : Prop :=
  ∀ (s t : State) (b : Byte) (i : Instr),
    i ∈ [Instr.s1Hit, .s1Miss b, .s2Hit, .s2Miss b, .hdrAcc b, .hdrEnd0 b, .hdrEndN b, .payAcc b, .payEnd b,
      .ckAcc b] →
    exec i s = .next t →
      t.pfd.res = s.pfd.res ∧ (∀ a, t.pfd.readRes a = s.pfd.readRes a) ∧
      t.input = s.input ∧ t.value = s.value ∧ t.draw = s.draw ∧
      t.pfd.msg.checksum = s.pfd.msg.checksum ∧
      (i ∉ [Instr.hdrEnd0 b, .hdrEndN b, .payEnd b] → t.pfd.msg = s.pfd.msg) ∧
      (i ∈ [Instr.s1Miss b, .ckAcc b] → t.pfd.acc = s.pfd.acc)

/-- The frame of the finalizing operations: the stream, the host's value and the draw counter are unchanged, and
every byte readable from `RES` afterwards is one of the frame's own payload (R33). -/
def Obligations.FinalizingOperationsWriteOnlyTheBlock : Prop :=
  ∀ (s t : State) (b : Byte) (i : Instr), i ∈ [Instr.ckOk b, .ckBad b] → exec i s = .next t →
    t.input = s.input ∧ t.value = s.value ∧ t.draw = s.draw ∧
    ∀ a, a < s.pfd.msg.payloadLength.toNat → t.pfd.readRes a = s.pfd.msg.payload[a]?

/-- The frame of the functions and of the stream's pseudo-operations: the block and its result port are
unchanged, whatever they answer (R66: "None reads or writes decoder state" of `40_checksum.md`). -/
def Obligations.FunctionsLeaveTheBlockAlone : Prop :=
  ∀ (s t : State) (m : Message) (len id c : U16) (src dst : Byte) (p : List Byte) (i : Instr),
    i ∈ [Instr.cksum m, .valid m, .length m, .setcrc m, .serialize m, .frame id src dst p,
      .framex len id src dst p c, .noise p] →
    exec i s = .next t → t.pfd = s.pfd ∧ t.result = s.result ∧ t.draw = s.draw

/-- R31, R33: `PAY.ACC` writes index `PCNT` of `PB` and no other, and no byte readable from `RES`. -/
def Obligations.PayAccWritesOneIndex : Prop :=
  ∀ (s t : State) (b : Byte) (pb : Memory), s.pfd.live = .readingPayload pb →
    exec (.payAcc b) s = .next t →
    ∃ pb' : Memory, t.pfd.live = .readingPayload pb' ∧ pb'.length = pb.length + 1 ∧
      Memory.read? pb' pb.length = some b ∧
      (∀ a, a ≠ pb.length → Memory.read? pb' a = Memory.read? pb a) ∧
      ∀ a, t.pfd.readRes a = s.pfd.readRes a

/-! ### The machine's step -/

/-- R120, R58: a presented byte runs the operation its dispatch word selects, and a host call its operation; the
item is consumed (R39), nothing is reported yet, and the draw counter moves (log entry 6). One of the twelve
operations of R58 is never input (R64). -/
def Obligations.StepRunsTheDecodedOperation : Prop :=
  ∀ (s : State) (rest : List Item) (i : Instr),
    (∀ (b : Byte) (w : DispatchWord), s.input = .cycle ⟨false, true, b⟩ :: rest →
      dispatchWord Config.params s.pfd b = some w → decodeWord Config.params w = .ok i →
      step s = exec i { s with input := rest, result := none, draw := s.draw + 1 }) ∧
    (s.input = .call i :: rest → i.dispatched = false →
      step s = exec i { s with input := rest, result := none, draw := s.draw + 1 }) ∧
    (s.input = .call i :: rest → i.dispatched = true → step s = .refused .notInput)

/-- R120, R121: a cycle with `in_valid = 0` and `rst = 0`, and the end of the stream, change nothing; no `Result`
is reported. -/
def Obligations.IdleCycleChangesNothing : Prop :=
  ∀ (s : State) (x : Byte) (rest : List Item),
    (s.input = .cycle ⟨false, false, x⟩ :: rest ∨ (s.input = [] ∧ rest = [])) →
    step s = .next { s with input := rest, result := none, draw := s.draw + 1 }

/-- R122 (b), R147: `rst` wins over a byte of the same cycle, which gets no `Result`. -/
def Obligations.ResetWinsOverAByte : Prop :=
  ∀ (s : State) (v : Bool) (x : Byte) (rest : List Item), s.input = .cycle ⟨true, v, x⟩ :: rest →
    step s = .next { s with
      pfd := { live := .awaitingStart1, msg := ⟨0#16, 0#16, 0#8, 0#8, [], 0#16⟩, acc := 0#16, res := none }
      input := rest
      result := none
      draw := s.draw + 1 }

/-- R160 and U6: before the first `RESET` a byte is refused, and with an unassigned phase code it meets no row;
`RESET` (R122) is defined in both. -/
def Obligations.NeverResetAndStuckPhasesStop : Prop :=
  ∀ (s : State) (b : Byte) (rest : List Item), s.input = .cycle ⟨false, true, b⟩ :: rest →
    (s.pfd.live = .powerUp → step s = .refused .neverReset) ∧
    (∀ c, s.pfd.live = .unassigned c → step s = .fault .stuckPhase) ∧
    (∃ t, exec .reset s = .next t ∧ t.pfd = State.reset.pfd)

/-- R120 (a): bytes may come with any gaps: idle cycles between them change neither the block nor what becomes of
the bytes. -/
def Obligations.GapsBetweenBytesDoNotMatter : Prop :=
  ∀ (ps : List PortIn) (s : State) (d : Pfd) (rs : List Result),
    s.input = ps.map Item.cycle → (∀ p ∈ ps, p.rst = false) →
    acceptBytes Config.params s.pfd ((ps.filter (·.inValid)).map (·.inData)) = .next (d, rs) →
    ∃ t : State, Host.Core.run Sys2Proof.core ps.length s = .next t ∧ t.pfd = d ∧ t.input = [] ∧
      t.value = s.value

/-! ### Decoding and encoding -/

/-- R57, R58: words written out from the table. -/
def Obligations.TableWordsDecode : Prop :=
  decodeTableWord 16 0x0042 = some .s1Hit ∧ decodeTableWord 16 0x0052 = some (.s1Miss 0x52#8) ∧
  decodeTableWord 16 0x0852 = some .s2Hit ∧ decodeTableWord 16 0x0842 = some (.s2Miss 0x42#8) ∧
  decodeTableWord 16 0x1003 = some (.hdrAcc 0x03#8) ∧ decodeTableWord 16 0x1655 = some (.hdrEnd0 0x55#8) ∧
  decodeTableWord 16 0x1402 = some (.hdrEndN 0x02#8) ∧ decodeTableWord 16 0x1810 = some (.payAcc 0x10#8) ∧
  decodeTableWord 16 0x1C30 = some (.payEnd 0x30#8) ∧ decodeTableWord 16 0x20FB = some (.ckAcc 0xFB#8) ∧
  decodeTableWord 16 0x2500 = some (.ckOk 0x00#8) ∧ decodeTableWord 16 0x24BE = some (.ckBad 0xBE#8) ∧
  decodeTableWord 16 0x2800 = none

/-- A word selects an operation exactly when its phase field is one of the five assigned codes (the spec derives it,
R59). -/
def Obligations.AssignedPhasesDecode : Prop :=
  ∀ (P : Config.Params) (w : DispatchWord),
    (∃ i, decodeWord P w = .ok i) ↔ (w.extractLsb' 11 3).toNat ≤ 4

/-- Rows 5 to 12 are pairwise disjoint; rows 1 and 2 overlap, and rows 3 and 4 (the spec derives it, R59). -/
def Obligations.RowsFiveToTwelveAreDisjoint : Prop :=
  ∀ P : Config.Params,
    ((rows P).drop 4).Pairwise (fun q r => ∀ w : DispatchWord, ¬(q.takes w = true ∧ r.takes w = true)) ∧
    (∃ (w : DispatchWord) (q r : Row),
      (rows P)[0]? = some q ∧ (rows P)[1]? = some r ∧ q.takes w = true ∧ r.takes w = true) ∧
    (∃ (w : DispatchWord) (q r : Row),
      (rows P)[2]? = some q ∧ (rows P)[3]? = some r ∧ q.takes w = true ∧ r.takes w = true)

/-- Decoding gives back every well-formed operation that has an encoding, with its byte, whatever follows, and the
twelve operations of R58 have one (the two-byte layout is the model's, log entry 12). -/
def Obligations.DecodeOfEncode : Prop :=
  ∀ (P : Config.Params) (i : Instr), i.wf P = true → i.dispatched = true →
    ∃ bs : List Byte, encode P i = some bs ∧ bs.length = 2 ∧
      ∀ rest, decode P (bs ++ rest) = .ok (i, rest)

/-- R57: the word a state forms is its operation's canonical word: the bits a row does not test are 0. -/
def Obligations.FormedWordsAreCanonical : Prop :=
  ∀ (P : Config.Params) (d : Pfd) (b : Byte) (w : DispatchWord) (i : Instr),
    dispatchWord P d b = some w → decodeWord P w = .ok i →
    encodeWord P i = some w ∧ acceptedByte P i = some b

/-- R58: an operation of the table runs exactly where its byte selects it; elsewhere it is refused (the model's
choice, log entry 9). -/
def Obligations.OperationsRunExactlyWhereSelected : Prop :=
  ∀ (s : State) (i : Instr) (b : Byte), acceptedByte Config.params i = some b →
    (select Config.params s.pfd b = .next i → ∃ t, exec i s = .next t) ∧
    (select Config.params s.pfd b ≠ .next i → exec i s = .refused .notSelected)

/-! ### Results and `RES` -/

/-- R140, R61: in the five phases every byte gets one of the four outcomes; the reserved kind (R60, R143) is none
of them. -/
def Obligations.OutcomesAreTheFour : Prop :=
  ∀ (P : Config.Params) (d : Pfd) (b : Byte), d.live.assigned → ∃ (e : Pfd) (r : Result),
    acceptByte P d b = .next (e, r) ∧
    (r = .inProgress ∨ (∃ m, r = .success m) ∨ r = .error .invalidStartByte ∨
      (∃ m, r = .error (.checksumError m))) ∧
    r ≠ .error .incompleteData

/-- R141, R142: when each error is raised, and by which byte, with its code (R55); what `ChecksumError` leaves in
`RES`; either leaves the decoder awaiting `MAGIC0`. `Success` exactly where the trailer equals `CKSUM(MSG)`
(R111). -/
def Obligations.ErrorsAreRaisedExactlyWhen : Prop :=
  ∀ (P : Config.Params) (d e : Pfd) (b : Byte) (r : Result), acceptByte P d b = .next (e, r) →
    (r = .error .invalidStartByte ↔
      (d.live = .awaitingStart1 ∧ b ≠ P.magic0) ∨ (d.live = .awaitingStart2 ∧ b ≠ P.magic1)) ∧
    (r = .error .invalidStartByte →
      r.code Config.params.codes = 0b010#3 ∧ e.live = .awaitingStart1 ∧ e.res = d.res) ∧
    (∀ m, r = .error (.checksumError m) ↔ ∃ c0, d.live = .readingChecksum [c0] ∧
      (b ++ c0 : U16) ≠ cksum P d.msg ∧ m = { d.msg with checksum := b ++ c0 }) ∧
    (∀ m, r = .error (.checksumError m) →
      r.code Config.params.codes = 0b011#3 ∧ e.live = .awaitingStart1 ∧ e.res = some ⟨.checksumError, m⟩) ∧
    (∀ m, r = .success m ↔ ∃ c0, d.live = .readingChecksum [c0] ∧
      (b ++ c0 : U16) = cksum P d.msg ∧ m = { d.msg with checksum := b ++ c0 })

/-- R113: a finalizing step fills `RES` and resets the decoder part, whatever the kind; the other two results leave
`RES` (R18), and `InvalidStartByte` leaves the block awaiting `MAGIC0` (R81, R83). -/
def Obligations.ResultsDetermineResAndReset : Prop :=
  ∀ (P : Config.Params) (d e : Pfd) (b : Byte) (r : Result), acceptByte P d b = .next (e, r) →
    (∀ m, r = .success m → e = { Pfd.initial with res := some ⟨.success, m⟩ }) ∧
    (∀ m, r = .error (.checksumError m) → e = { Pfd.initial with res := some ⟨.checksumError, m⟩ }) ∧
    (r = .error .invalidStartByte → e.live = .awaitingStart1 ∧ e.res = d.res ∧ e.msg = d.msg ∧
      (d.live = .awaitingStart1 → e = d)) ∧
    (r = .inProgress → e.res = d.res)

/-- R33, R170: over any bytes, `RES` and every byte readable from it stand until the next finalizing step. -/
def Obligations.ResStandsUntilTheNextFinalizingStep : Prop :=
  ∀ (P : Config.Params) (bs : List Byte) (d e : Pfd) (rs : List Result),
    acceptBytes P d bs = .next (e, rs) → (∀ r ∈ rs, ¬ r.finalizes) →
    e.res = d.res ∧ ∀ a, e.readRes a = d.readRes a

/-- R170: from `AwaitingStart1` a finalizing step needs at least ten accepted bytes, so ten is the shortest
interval between two of them. -/
def Obligations.FinalizingStepsAreTenBytesApart : Prop :=
  ∀ (P : Config.Params) (bs : List Byte) (d e : Pfd) (rs : List Result), d.live = .awaitingStart1 →
    acceptBytes P d bs = .next (e, rs) → (∃ r ∈ rs, r.finalizes) → 10 ≤ bs.length

/-- R121, R124: what the output ports show of a reported `Result` and of a valid bank, whatever the free values
and the codes, and R55: this hardware's codes. -/
def Obligations.PortsShowResultAndBank : Prop :=
  ∀ (P : Config.Params) (s : State) (a : U16), s.pfd.live ≠ .powerUp →
    (portsOut P s a).inReady = true ∧
    (portsOut P s a).resValid = s.result.isSome ∧ (portsOut P s a).msgValid = s.pfd.res.isSome ∧
    (∀ x, s.result = some x → (portsOut P s a).resKind = x.code P.codes) ∧
    (∀ r, s.pfd.res = some r →
      (portsOut P s a).msgKind = r.kind.code P.codes ∧
      (portsOut P s a).msgPayloadLength = r.msg.payloadLength ∧
      (portsOut P s a).msgMessageId = r.msg.messageId ∧
      (portsOut P s a).msgSrcDeviceId = r.msg.srcDeviceId ∧
      (portsOut P s a).msgDstDeviceId = r.msg.dstDeviceId ∧
      (portsOut P s a).msgChecksum = r.msg.checksum ∧
      ∀ y, a.toNat < r.msg.payloadLength.toNat → r.msg.payload[a.toNat]? = some y →
        (portsOut P s a).msgRdData = y) ∧
    ∀ m : Message,
      Result.code Config.params.codes .inProgress = 0b000#3 ∧
      Result.code Config.params.codes (.success m) = 0b001#3 ∧
      Result.code Config.params.codes (.error .invalidStartByte) = 0b010#3 ∧
      Result.code Config.params.codes (.error (.checksumError m)) = 0b011#3 ∧
      Result.code Config.params.codes (.error .incompleteData) = 0b100#3 ∧
      ResKind.code Config.params.codes .success = 0b001#3 ∧
      ResKind.code Config.params.codes .checksumError = 0b011#3

/-- R27: the output ports depend on nothing of the block but `RES` (and on the result reported and the draw of
the cycle): an incomplete message is never exposed. -/
def Obligations.PortsHideTheMessageInProgress : Prop :=
  ∀ (P : Config.Params) (s t : State) (a : U16), s.pfd.live.assigned → t.pfd.live.assigned →
    s.pfd.res = t.pfd.res → s.result = t.result → s.draw = t.draw → portsOut P s a = portsOut P t a

/-! ### Invariants -/

/-- The invariant of R20 (which the spec derives) holds after `RESET`. -/
def Obligations.ResetMeetsTheInvariant : Prop :=
  State.reset.Safe ∧ ∀ P : Config.Params, Pfd.Inv P Pfd.initial

/-- One accepted byte keeps the block's invariant (the spec derives it, R20), for any parameters; `ACC` is the running
sum of the frame in it (R17). What it says of dead elements is the model's (log entry 3). -/
def Obligations.AcceptedByteKeepsTheInvariant : Prop :=
  ∀ (P : Config.Params) (d e : Pfd) (b : Byte) (r : Result), d.Inv P → acceptByte P d b = .next (e, r) →
    e.Inv P

/-- Every step of the machine that answers keeps the invariant, from every state that meets it (the spec derives the
block's part, R20; what it says of the result port is R121's). -/
def Obligations.StepKeepsTheInvariant : Prop :=
  ∀ s t : State, s.Inv Config.params → step s = .next t → t.Inv Config.params

/-- A safe machine never stops and stays safe, however long it runs: no byte makes the block stop (R61, R140), and no
well-formed call of the host (log entry 7). -/
def Obligations.SafeMachineRunsForEver : Prop :=
  ∀ (n : Nat) (s : State), s.Safe → ∃ t : State, Host.Core.run Sys2Proof.core n s = .next t ∧ t.Safe

/-- Under the invariant no buffer outgrows the payload memory, and the message a bank holds is as long
as it declares and of the right kind (the spec derives it, R20; the payload memory's size is R15's). -/
def Obligations.BuffersFitThePayloadMemory : Prop :=
  ∀ (P : Config.Params) (d : Pfd), d.Inv P →
    (∀ pb, d.live = .readingPayload pb → Memory.wf pb ∧ pb.length ≤ 65534) ∧
    (∀ cb, d.live = .readingChecksum cb → Memory.wf d.msg.payload ∧ cb.length ≤ 1) ∧
    (∀ hb, d.live = .readingHeader hb → hb.length ≤ 5) ∧
    (∀ r, d.res = some r → Memory.wf r.msg.payload ∧ r.msg.payload.length = r.msg.payloadLength.toNat ∧
      (valid P r.msg = true ↔ r.kind = .success))

/-- Under the invariant every byte advances the position by one, with `InProgress`, or returns it to 0, with
another result; it never exceeds 65544 (the spec derives it, R12). -/
def Obligations.PositionAdvancesByOneOrReturns : Prop :=
  ∀ (P : Config.Params) (d e : Pfd) (b : Byte) (r : Result), d.Inv P → acceptByte P d b = .next (e, r) →
    ∃ k, d.position = some k ∧ k ≤ 65544 ∧
      ((r = .inProgress ∧ e.position = some (k + 1)) ∨ (r ≠ .inProgress ∧ e.position = some 0))

/-! ### Whole-machine statements -/

/-- The dispatched operations together are the one listing of the whole step, for any parameters (R126, which the spec
calls informative and derives). The
listing differs in a state with two trailer bytes at rest, which the invariant excludes. -/
def Obligations.DispatchRefinesTheListing : Prop :=
  ∀ (P : Config.Params) (d : Pfd) (b : Byte), (∀ cb, d.live = .readingChecksum cb → cb.length ≤ 1) →
    acceptByte P d b = stepListing P d b

/-- The round trip (the spec derives it, R132): the frame of a complete message, fed one byte per step into a decoder
that awaits `MAGIC0`, gives `InProgress` until the last byte and then `Success` of that very message if its checksum
is `CKSUM`, `ChecksumError` of it otherwise; with the checksum set by `SETCRC` it is `Success`. -/
def Obligations.FramesRoundTrip : Prop :=
  ∀ (P : Config.Params) (m : Message) (d : Pfd), m.payload.length = m.payloadLength.toNat →
    d.live = .awaitingStart1 →
    (m.checksum = cksum P m →
      acceptBytes P d (serialize P m) =
        .next ({ Pfd.initial with res := some ⟨.success, m⟩ },
          List.replicate (9 + m.payloadLength.toNat) Result.inProgress ++ [.success m])) ∧
    (m.checksum ≠ cksum P m →
      acceptBytes P d (serialize P m) =
        .next ({ Pfd.initial with res := some ⟨.checksumError, m⟩ },
          List.replicate (9 + m.payloadLength.toNat) Result.inProgress ++ [.error (.checksumError m)])) ∧
    acceptBytes P d (serialize P (setcrc P m)) =
      .next ({ Pfd.initial with res := some ⟨.success, setcrc P m⟩ },
        List.replicate (9 + m.payloadLength.toNat) Result.inProgress ++ [.success (setcrc P m)])

/-- A `FRAME` in the stream, run by the machine: the call and its `10 + L` bytes leave the message in `RES`, its
`Success` on the result port and the rest of the stream to come (R65, R120, R132). -/
def Obligations.FrameInTheStreamIsDelivered : Prop :=
  ∀ (s : State) (id : U16) (src dst : Byte) (p : List Byte) (rest : List Item),
    s.pfd.live = .awaitingStart1 → p.length ≤ 65535 → s.input = .call (.frame id src dst p) :: rest →
    ∃ t : State, Host.Core.run Sys2Proof.core (11 + p.length) s = .next t ∧ t.input = rest ∧
      t.value = s.value ∧
      t.pfd = { Pfd.initial with res := some ⟨.success, frameMessage Config.params id src dst p⟩ } ∧
      t.result = some (.success (frameMessage Config.params id src dst p))

/-- With different magic bytes, `n` copies of `MAGIC0` and then `MAGIC1` find a frame start exactly when
`n` is odd: the byte that fails in `AwaitingStart2` is not looked at again (the spec derives it,
R84 (b)). -/
def Obligations.RepeatedFirstMagicByteParity : Prop :=
  ∀ (P : Config.Params) (d : Pfd) (n : Nat), P.magic0 ≠ P.magic1 → d.live = .awaitingStart1 →
    ∃ (e : Pfd) (rs : List Result),
      acceptBytes P d (List.replicate n P.magic0 ++ [P.magic1]) = .next (e, rs) ∧
      (n % 2 = 1 → e.live = .readingHeader []) ∧ (n % 2 = 0 → e.live = .awaitingStart1)

/-- With equal magic bytes, `n` copies leave `n - 2` header bytes taken, for `2 ≤ n ≤ 7` (the spec derives it,
R84 (c)). -/
def Obligations.EqualMagicBytesFillTheHeader : Prop :=
  ∀ (P : Config.Params) (d : Pfd) (n : Nat), P.magic0 = P.magic1 → d.live = .awaitingStart1 →
    2 ≤ n → n ≤ 7 → ∃ (e : Pfd) (rs : List Result),
      acceptBytes P d (List.replicate n P.magic0) = .next (e, rs) ∧
      e.live = .readingHeader (List.replicate (n - 2) P.magic0)

/-- In `AwaitingStart1` the results of every future byte stream are those of any other decoder in that
phase, a fresh one included, whatever `MSG`, `ACC` and `RES` hold (the spec
derives it, R28). -/
def Obligations.AwaitingStart1IsAsFresh : Prop :=
  ∀ (P : Config.Params) (bs : List Byte) (d e : Pfd), d.live = .awaitingStart1 → e.live = .awaitingStart1 →
    ∃ (d' e' : Pfd) (rs : List Result),
      acceptBytes P d bs = .next (d', rs) ∧ acceptBytes P e bs = .next (e', rs) ∧ d'.live = e'.live

/-- R164: the declared length is believed: from any point of the payload phase, the bytes still declared are taken
as payload whatever they are, with `InProgress` for each. -/
def Obligations.DeclaredPayloadIsTakenWhole : Prop :=
  ∀ (P : Config.Params) (bs : List Byte) (d : Pfd) (pb : Memory), d.live = .readingPayload pb →
    bs ≠ [] → pb.length + bs.length = d.msg.payloadLength.toNat →
    ∃ e : Pfd,
      acceptBytes P d bs = .next (e, List.replicate bs.length .inProgress) ∧
      e.live = .readingChecksum [] ∧ e.msg = { d.msg with payload := pb ++ bs } ∧ e.res = d.res

/-- From any state that meets the invariant, the decoder is back in `AwaitingStart1` after a bounded number
of further bytes, whatever they are (the spec derives it, R166). -/
def Obligations.RecoveryIsBounded : Prop :=
  ∀ (P : Config.Params) (d : Pfd) (bs : List Byte), d.Inv P → bs.length = 8 + 65535 + 2 - 1 →
    ∃ (n : Nat) (e : Pfd) (rs : List Result), n ≤ bs.length ∧
      acceptBytes P d (bs.take n) = .next (e, rs) ∧ e.live = .awaitingStart1

/-- Reordering the payload leaves `CKSUM` unchanged (the spec derives it, R72 (c)). -/
def Obligations.CksumIgnoresPayloadOrder : Prop :=
  ∀ (P : Config.Params) (m : Message) (q : List Byte), m.payload.Perm q →
    cksum P { m with payload := q } = cksum P m

/-- One changed byte among `message_id`, the device ids and the payload always changes `CKSUM` (the spec derives it,
R72 (e)). -/
def Obligations.SingleByteCorruptionIsDetected : Prop :=
  ∀ (P : Config.Params) (m : Message) (x y z : Byte) (p q : List Byte), x ≠ y →
    cksum P { m with payload := p ++ x :: q } ≠ cksum P { m with payload := p ++ y :: q } ∧
    cksum P { m with srcDeviceId := x } ≠ cksum P { m with srcDeviceId := y } ∧
    cksum P { m with dstDeviceId := x } ≠ cksum P { m with dstDeviceId := y } ∧
    cksum P { m with messageId := le16 x z } ≠ cksum P { m with messageId := le16 y z } ∧
    cksum P { m with messageId := le16 z x } ≠ cksum P { m with messageId := le16 z y }
end

