-- ==== Sys2Proof/Laws/State.lean ====
section
/-! SUPPORT. One lemma for each field and each named update of the state. -/

namespace Sys2Proof.Machine

@[simp] theorem consume_pfd (s : State) : (consume s).pfd = s.pfd := rfl
@[simp] theorem consume_result (s : State) : (consume s).result = none := rfl
@[simp] theorem consume_input (s : State) : (consume s).input = s.input.tail := rfl
@[simp] theorem consume_value (s : State) : (consume s).value = s.value := rfl
@[simp] theorem consume_draw (s : State) : (consume s).draw = s.draw + 1 := rfl

@[simp] theorem initial_live : Pfd.initial.live = .awaitingStart1 := rfl
@[simp] theorem initial_msg : Pfd.initial.msg = initialMessage := rfl
@[simp] theorem initial_acc : Pfd.initial.acc = 0#16 := rfl
@[simp] theorem initial_res : Pfd.initial.res = none := rfl

@[simp] theorem finalize_live (k : ResKind) (m : Message) (d : Pfd) :
    (finalize k m d).live = .awaitingStart1 := rfl
@[simp] theorem finalize_msg (k : ResKind) (m : Message) (d : Pfd) :
    (finalize k m d).msg = initialMessage := rfl
@[simp] theorem finalize_acc (k : ResKind) (m : Message) (d : Pfd) :
    (finalize k m d).acc = 0#16 := rfl
@[simp] theorem finalize_res (k : ResKind) (m : Message) (d : Pfd) :
    (finalize k m d).res = some ⟨k, m⟩ := rfl

@[simp] theorem resetPfd_eq (d : Pfd) : resetPfd d = Pfd.initial := rfl

@[simp] theorem withHeader_payloadLength (m : Message) (h0 h1 h2 h3 h4 h5 : Byte) :
    (withHeader m h0 h1 h2 h3 h4 h5).payloadLength = le16 h0 h1 := rfl
@[simp] theorem withHeader_messageId (m : Message) (h0 h1 h2 h3 h4 h5 : Byte) :
    (withHeader m h0 h1 h2 h3 h4 h5).messageId = le16 h2 h3 := rfl
@[simp] theorem withHeader_srcDeviceId (m : Message) (h0 h1 h2 h3 h4 h5 : Byte) :
    (withHeader m h0 h1 h2 h3 h4 h5).srcDeviceId = h4 := rfl
@[simp] theorem withHeader_dstDeviceId (m : Message) (h0 h1 h2 h3 h4 h5 : Byte) :
    (withHeader m h0 h1 h2 h3 h4 h5).dstDeviceId = h5 := rfl
@[simp] theorem withHeader_payload (m : Message) (h0 h1 h2 h3 h4 h5 : Byte) :
    (withHeader m h0 h1 h2 h3 h4 h5).payload = m.payload := rfl
@[simp] theorem withHeader_checksum (m : Message) (h0 h1 h2 h3 h4 h5 : Byte) :
    (withHeader m h0 h1 h2 h3 h4 h5).checksum = m.checksum := rfl

@[simp] theorem withTrailer_checksum (m : Message) (c0 c1 : Byte) :
    (withTrailer m c0 c1).checksum = le16 c0 c1 := rfl
@[simp] theorem withTrailer_payload (m : Message) (c0 c1 : Byte) :
    (withTrailer m c0 c1).payload = m.payload := rfl
@[simp] theorem withTrailer_payloadLength (m : Message) (c0 c1 : Byte) :
    (withTrailer m c0 c1).payloadLength = m.payloadLength := rfl

@[simp] theorem setcrc_checksum (P : Config.Params) (m : Message) :
    (setcrc P m).checksum = cksum P m := rfl
@[simp] theorem setcrc_payload (P : Config.Params) (m : Message) :
    (setcrc P m).payload = m.payload := rfl
@[simp] theorem setcrc_payloadLength (P : Config.Params) (m : Message) :
    (setcrc P m).payloadLength = m.payloadLength := rfl

end Sys2Proof.Machine
end

