-- ==== Sys2Proof/Laws/Ops.lean ====
section
/-! SUPPORT. What each shared operation does, said once: words, buffers, checksums, and the outcomes. -/

namespace Sys2Proof.Machine

/-! ### Bytes and words -/

/-- The low part of a concatenation. -/
theorem extract_low {m n : Nat} (x : BitVec m) (y : BitVec n) : (x ++ y).extractLsb' 0 n = y := by
  ext i hi; simp [hi, BitVec.getLsbD_append]

/-- The high part of a concatenation. -/
theorem extract_high {m n : Nat} (x : BitVec m) (y : BitVec n) : (x ++ y).extractLsb' n m = x := by
  ext i hi; simp [BitVec.getLsbD_append, BitVec.getLsbD_eq_getElem hi]

/-- A slice above the low part is a slice of the high part. -/
theorem extract_above {m n : Nat} (x : BitVec m) (y : BitVec n) (k l : Nat) :
    (x ++ y).extractLsb' (n + k) l = x.extractLsb' k l := by
  ext i hi
  simp [BitVec.getLsbD_append, show ¬ n + k + i < n by omega, show n + k + i - n = k + i by omega]

/-- A vector is its high part before its low part. -/
theorem append_extracts {m n : Nat} (v : BitVec (m + n)) :
    v.extractLsb' n m ++ v.extractLsb' 0 n = v := by
  ext i hi
  simp

@[simp] theorem lo8_le16 (b0 b1 : Byte) : lo8 (le16 b0 b1) = b0 := extract_low b1 b0

@[simp] theorem hi8_le16 (b0 b1 : Byte) : hi8 (le16 b0 b1) = b1 := extract_high b1 b0

@[simp] theorem le16_lo8_hi8 (v : U16) : le16 (lo8 v) (hi8 v) = v := append_extracts (m := 8) (n := 8) v

theorem zext16_toNat (b : Byte) : (zext16 b).toNat = b.toNat := by
  simp [zext16]; omega

@[simp] theorem addBytes_nil (s : U16) : addBytes s [] = s := rfl

@[simp] theorem addBytes_cons (s : U16) (b : Byte) (bs : List Byte) :
    addBytes s (b :: bs) = addBytes (addByte s b) bs := rfl

theorem addBytes_append (s : U16) (bs cs : List Byte) :
    addBytes s (bs ++ cs) = addBytes (addBytes s bs) cs := List.foldl_append

/-- The running sum in integers (R72 (d)). -/
theorem addBytes_toNat (s : U16) (bs : List Byte) :
    (addBytes s bs).toNat = (s.toNat + (bs.map BitVec.toNat).sum) % 65536 := by
  induction bs generalizing s with
  | nil => simp [Nat.mod_eq_of_lt s.isLt]
  | cons b bs ih =>
    simp only [addBytes_cons, ih, addByte, BitVec.toNat_add, zext16_toNat, List.map_cons, List.sum_cons]
    omega

/-! ### Buffers -/

@[simp] theorem append_length (m : Memory) (b : Byte) : (Memory.append m b).length = m.length + 1 := by
  simp [Memory.append]

theorem append_wf (m : Memory) (b : Byte) (h : m.length < Config.maxPayload) :
    (Memory.append m b).wf := by
  simpa [Memory.wf] using h

/-- A byte appended reads back at the index that was the length (R31). -/
@[simp] theorem read_append_same (m : Memory) (b : Byte) :
    Memory.read? (Memory.append m b) m.length = some b := by
  simp [Memory.read?, Memory.append]

/-- An append changes no other index (R31). -/
theorem read_append_other (m : Memory) (b : Byte) (a : Nat) (h : a ≠ m.length) :
    Memory.read? (Memory.append m b) a = Memory.read? m a := by
  simp only [Memory.read?, Memory.append]
  rcases Nat.lt_or_gt_of_ne h with h | h
  · rw [List.getElem?_append_left h]
  · rw [List.getElem?_eq_none (by simp; omega), List.getElem?_eq_none (by omega)]

/-- The address and byte pairs of a buffer determine it: equal cells are equal buffers. -/
theorem cells_injective (m n : Memory) (h : m.cells = n.cells) : m = n := by
  have key : ∀ (k : Memory), k.cells.map Prod.snd = k := fun k => by
    simp [Memory.cells, Function.comp_def]
  rw [← key m, ← key n, h]

/-- The addresses of a buffer's cells are `0, 1, ..`: strictly rising, none twice. -/
theorem cells_addresses (m : Memory) : m.cells.map Prod.fst = List.range m.length := by
  simp [Memory.cells, Function.comp_def, List.range_eq_range']

/-! ### The checksum -/

/-- `CKSUM` is the sum of `W(M)` (R74). -/
theorem cksum_eq_sum (P : Config.Params) (m : Message) :
    cksum P m = addBytes 0#16 (summedBytes P m) := by
  simp [cksum, summedBytes]

/-- `CKSUM` does not read the checksum field (R70). -/
@[simp] theorem cksum_withTrailer (P : Config.Params) (m : Message) (c0 c1 : Byte) :
    cksum P (withTrailer m c0 c1) = cksum P m := rfl

@[simp] theorem cksum_setcrc (P : Config.Params) (m : Message) : cksum P (setcrc P m) = cksum P m := rfl

theorem valid_iff (P : Config.Params) (m : Message) : valid P m = true ↔ m.checksum = cksum P m := by
  simp [valid]

/-- The fixed bytes of a message whose header fields come from six header bytes are those bytes (R52, R74). -/
theorem summedBytes_withHeader (P : Config.Params) (m : Message) (h0 h1 h2 h3 h4 h5 : Byte) :
    summedBytes P (withHeader m h0 h1 h2 h3 h4 h5) =
      [P.magic0, P.magic1, h0, h1, h2, h3, h4, h5] ++ m.payload := by
  simp [summedBytes]

/-! ### Outcomes -/

/-- A report that answers a next state: the block operation answered, and only the block and the result port
have changed. -/
theorem report_next {o : Performed} {s t : State} (h : report o s = .next t) :
    ∃ d r, o = .next (d, r) ∧ t = { s with pfd := d, result := some r } := by
  unfold report at h
  split at h
  · exact ⟨_, _, rfl, by cases h; rfl⟩
  · cases h
  · cases h

@[simp] theorem report_of_next (d : Pfd) (r : Result) (s : State) :
    report (.next (d, r)) s = .next { s with pfd := d, result := some r } := rfl
@[simp] theorem report_of_fault (f : Fault) (s : State) : report (.fault f) s = .fault f := rfl
@[simp] theorem report_of_refused (x : Refusal) (s : State) : report (.refused x) s = .refused x := rfl

@[simp] theorem answer_eq (v : Value) (s : State) : answer v s = .next { s with value := some v } := rfl

@[simp] theorem present_eq (bs : List Byte) (s : State) :
    present bs s = .next { s with input := bs.map Item.byte ++ s.input } := rfl

@[simp] theorem proceed_eq (d : Pfd) : proceed d = .next (d, .inProgress) := rfl
@[simp] theorem raise_eq (e : ErrKind) (d : Pfd) : raise e d = .next (d, .error e) := rfl

end Sys2Proof.Machine
end

