-- ==== Sys2Proof/Laws/Decode.lean ====
section
/-! SUPPORT. The dispatch word's fields and the row that takes each word. -/

namespace Sys2Proof

/-- The six bits of a dispatch word above the byte. -/
def wordHigh (phase : Code) (full lz ckok : Bool) : BitVec 6 :=
  phase ++ BitVec.ofBool full ++ BitVec.ofBool lz ++ BitVec.ofBool ckok

theorem mkWord_eq (phase : Code) (full lz ckok : Bool) (b : Byte) :
    mkWord phase full lz ckok b = wordHigh phase full lz ckok ++ b := rfl

@[simp] theorem mkWord_byte (phase : Code) (full lz ckok : Bool) (b : Byte) :
    (mkWord phase full lz ckok b).extractLsb' 0 8 = b :=
  Machine.extract_low (wordHigh phase full lz ckok) b

@[simp] theorem mkWord_high (phase : Code) (full lz ckok : Bool) (b : Byte) :
    (mkWord phase full lz ckok b).extractLsb' 8 6 = wordHigh phase full lz ckok :=
  Machine.extract_high (wordHigh phase full lz ckok) b

/-- A word is its high six bits before its byte. -/
theorem word_split (w : DispatchWord) : w.extractLsb' 8 6 ++ w.extractLsb' 0 8 = w :=
  Machine.append_extracts (m := 6) (n := 8) w

/-- Masks and patterns act on the high and the low part apart. -/
theorem and_eq_split {m n : Nat} (h x y : BitVec m) (b u v : BitVec n) :
    ((h ++ b) &&& (x ++ u)) = y ++ v ↔ (h &&& x) = y ∧ (b &&& u) = v := by
  constructor
  · intro e
    constructor
    · ext i hi
      have := congrArg (fun z : BitVec (m + n) => z.getLsbD (n + i)) e
      simpa [BitVec.getLsbD_append, hi] using this
    · ext i hi
      have := congrArg (fun z : BitVec (m + n) => z.getLsbD i) e
      simpa [BitVec.getLsbD_append, hi] using this
  · rintro ⟨rfl, rfl⟩
    ext i hi
    by_cases hn : i < n <;> simp [BitVec.getElem_append, hn]

/-- A row takes a word when it takes its high six bits and its byte. -/
theorem takes_split (r : Row) (h : BitVec 6) (b : Byte) :
    r.takes (h ++ b) = ((h &&& r.mask.extractLsb' 8 6) == r.pattern.extractLsb' 8 6 &&
      (b &&& r.mask.extractLsb' 0 8) == r.pattern.extractLsb' 0 8) := by
  have e := and_eq_split (m := 6) (n := 8) h (r.mask.extractLsb' 8 6) (r.pattern.extractLsb' 8 6) b
    (r.mask.extractLsb' 0 8) (r.pattern.extractLsb' 0 8)
  rw [word_split r.mask, word_split r.pattern] at e
  rw [Row.takes, Bool.eq_iff_iff]
  simpa using e

/-- Decoding by any list of rows. -/
def fromRows (rs : List Row) (w : DispatchWord) : Except DecodeError Instr :=
  match rs.find? (fun r => r.takes w) with
  | some r => .ok (r.op (w.extractLsb' 0 8))
  | none => .error (.noRow (w.extractLsb' 11 3))

theorem decodeWord_eq (P : Config.Params) (w : DispatchWord) : decodeWord P w = fromRows (rows P) w := rfl

/-- The first row that takes the word decides (R58). -/
theorem fromRows_cons (r : Row) (rs : List Row) (w : DispatchWord) :
    fromRows (r :: rs) w =
      if r.takes w = true then .ok (r.op (w.extractLsb' 0 8)) else fromRows rs w := by
  cases h : r.takes w <;> simp [fromRows, h]

theorem fromRows_nil (w : DispatchWord) :
    fromRows [] w = .error (.noRow (w.extractLsb' 11 3)) := rfl

/-- The rows as their high six bits and their byte: what each tests, and what it wants there. -/
theorem decodeWord_append (P : Config.Params) (h : BitVec 6) (b : Byte) :
    decodeWord P (h ++ b) =
      if h &&& 0b111000#6 = 0b000000#6 ∧ b = P.magic0 then .ok .s1Hit
      else if h &&& 0b111000#6 = 0b000000#6 then .ok (.s1Miss b)
      else if h &&& 0b111000#6 = 0b001000#6 ∧ b = P.magic1 then .ok .s2Hit
      else if h &&& 0b111000#6 = 0b001000#6 then .ok (.s2Miss b)
      else if h &&& 0b111100#6 = 0b010000#6 then .ok (.hdrAcc b)
      else if h &&& 0b111110#6 = 0b010110#6 then .ok (.hdrEnd0 b)
      else if h &&& 0b111110#6 = 0b010100#6 then .ok (.hdrEndN b)
      else if h &&& 0b111100#6 = 0b011000#6 then .ok (.payAcc b)
      else if h &&& 0b111100#6 = 0b011100#6 then .ok (.payEnd b)
      else if h &&& 0b111100#6 = 0b100000#6 then .ok (.ckAcc b)
      else if h &&& 0b111101#6 = 0b100101#6 then .ok (.ckOk b)
      else if h &&& 0b111101#6 = 0b100100#6 then .ok (.ckBad b)
      else .error (.noRow (h.extractLsb' 3 3)) := by
  have hm0 : (0b000000#6 ++ P.magic0 : DispatchWord).extractLsb' 8 6 = 0b000000#6 :=
    Machine.extract_high _ _
  have hm0' : (0b000000#6 ++ P.magic0 : DispatchWord).extractLsb' 0 8 = P.magic0 :=
    Machine.extract_low _ _
  have hm1 : (0b001000#6 ++ P.magic1 : DispatchWord).extractLsb' 8 6 = 0b001000#6 :=
    Machine.extract_high _ _
  have hm1' : (0b001000#6 ++ P.magic1 : DispatchWord).extractLsb' 0 8 = P.magic1 :=
    Machine.extract_low _ _
  have hb : (h ++ b : DispatchWord).extractLsb' 0 8 = b := Machine.extract_low _ _
  have hc : (h ++ b : DispatchWord).extractLsb' 11 3 = h.extractLsb' 3 3 :=
    Machine.extract_above h b 3 3
  have hff : b &&& 0xFF#8 = b := by
    rw [show (0xFF#8) = BitVec.allOnes 8 from rfl, BitVec.and_allOnes]
  simp only [decodeWord_eq, rows, fromRows_cons, fromRows_nil, takes_split, hm0, hm0', hm1, hm1', hb, hc,
    Bool.and_eq_true, beq_iff_eq]
  simp [hff]

end Sys2Proof
end

