-- ==== Sys2Proof/Laws/Dispatch.lean ====
section
/-! SUPPORT. Which operation each phase's dispatch words select, and everything a step on one byte can do. -/

namespace Sys2Proof

theorem decode_awaitingStart1 (P : Config.Params) (f l k : Bool) (b : Byte) :
    decodeWord P (mkWord 0b000#3 f l k b) = if b = P.magic0 then .ok .s1Hit else .ok (.s1Miss b) := by
  rw [mkWord_eq, decodeWord_append]
  have h : wordHigh 0b000#3 f l k &&& 0b111000#6 = 0b000000#6 := by revert f l k; decide
  simp [h]

theorem decode_awaitingStart2 (P : Config.Params) (f l k : Bool) (b : Byte) :
    decodeWord P (mkWord 0b001#3 f l k b) = if b = P.magic1 then .ok .s2Hit else .ok (.s2Miss b) := by
  rw [mkWord_eq, decodeWord_append]
  have h : wordHigh 0b001#3 f l k &&& 0b111000#6 = 0b001000#6 := by revert f l k; decide
  simp [h]

theorem decode_readingHeader (P : Config.Params) (f l k : Bool) (b : Byte) :
    decodeWord P (mkWord 0b010#3 f l k b) =
      .ok (if f then (if l then .hdrEnd0 b else .hdrEndN b) else .hdrAcc b) := by
  rw [mkWord_eq, decodeWord_append]
  cases f <;> cases l <;> cases k <;> rfl

theorem decode_readingPayload (P : Config.Params) (f l k : Bool) (b : Byte) :
    decodeWord P (mkWord 0b011#3 f l k b) = .ok (if f then .payEnd b else .payAcc b) := by
  rw [mkWord_eq, decodeWord_append]
  cases f <;> cases l <;> cases k <;> rfl

theorem decode_readingChecksum (P : Config.Params) (f l k : Bool) (b : Byte) :
    decodeWord P (mkWord 0b100#3 f l k b) =
      .ok (if f then (if k then .ckOk b else .ckBad b) else .ckAcc b) := by
  rw [mkWord_eq, decodeWord_append]
  cases f <;> cases l <;> cases k <;> rfl

namespace Machine

/-- A word with an unassigned phase code matches no row (R59). -/
theorem decode_unassigned (P : Config.Params) (c : UnassignedCode) (f l k : Bool) (b : Byte) :
    decodeWord P (mkWord c.code f l k b) = .error (.noRow c.code) := by
  rw [mkWord_eq, decodeWord_append]
  cases c <;> cases f <;> cases l <;> cases k <;> rfl

/-! ### The operation selected -/

theorem select_of_live {P : Config.Params} {d : Pfd} {b : Byte} {c : Code} {i : Instr}
    (hc : d.live.code = some c)
    (hi : decodeWord P (mkWord c (full d) (lz d) (ckok P d b) b) = .ok i) :
    select P d b = .next i := by
  simp [select, dispatchWord, hc, hi]

theorem select_awaitingStart1 (P : Config.Params) {d : Pfd} (b : Byte) (h : d.live = .awaitingStart1) :
    select P d b = .next (if b = P.magic0 then .s1Hit else .s1Miss b) :=
  select_of_live (c := 0b000#3) (by simp [h, Live.code]) (by rw [decode_awaitingStart1]; split <;> rfl)

theorem select_awaitingStart2 (P : Config.Params) {d : Pfd} (b : Byte) (h : d.live = .awaitingStart2) :
    select P d b = .next (if b = P.magic1 then .s2Hit else .s2Miss b) :=
  select_of_live (c := 0b001#3) (by simp [h, Live.code]) (by rw [decode_awaitingStart2]; split <;> rfl)

theorem select_readingHeader (P : Config.Params) {d : Pfd} (b : Byte) {hb : List Byte}
    (h : d.live = .readingHeader hb) :
    select P d b =
      .next (if full d then (if lz d then .hdrEnd0 b else .hdrEndN b) else .hdrAcc b) :=
  select_of_live (c := 0b010#3) (by simp [h, Live.code]) (decode_readingHeader P _ _ _ b)

theorem select_readingPayload (P : Config.Params) {d : Pfd} (b : Byte) {pb : Memory}
    (h : d.live = .readingPayload pb) :
    select P d b = .next (if full d then .payEnd b else .payAcc b) :=
  select_of_live (c := 0b011#3) (by simp [h, Live.code]) (decode_readingPayload P _ _ _ b)

theorem select_readingChecksum (P : Config.Params) {d : Pfd} (b : Byte) {cb : List Byte}
    (h : d.live = .readingChecksum cb) :
    select P d b =
      .next (if full d then (if ckok P d b then .ckOk b else .ckBad b) else .ckAcc b) :=
  select_of_live (c := 0b100#3) (by simp [h, Live.code]) (decode_readingChecksum P _ _ _ b)

theorem select_unassigned (P : Config.Params) {d : Pfd} (b : Byte) {c : UnassignedCode}
    (h : d.live = .unassigned c) : select P d b = .fault .stuckPhase := by
  simp [select, dispatchWord, h, Live.code, decode_unassigned]

theorem select_powerUp (P : Config.Params) {d : Pfd} (b : Byte) (h : d.live = .powerUp) :
    select P d b = .refused .neverReset := by
  simp [select, dispatchWord, h, Live.code]

/-! ### What a step on one byte does, phase by phase -/

theorem acceptByte_awaitingStart1 (P : Config.Params) {d : Pfd} (b : Byte) (h : d.live = .awaitingStart1) :
    acceptByte P d b =
      if b = P.magic0 then .next ({ d with live := .awaitingStart2, acc := zext16 P.magic0 }, .inProgress)
      else .next (d, .error .invalidStartByte) := by
  rw [acceptByte, select_awaitingStart1 P b h]
  by_cases hb : b = P.magic0 <;> simp [perform, opS1Hit, opS1Miss, h, hb]

theorem acceptByte_awaitingStart2 (P : Config.Params) {d : Pfd} (b : Byte) (h : d.live = .awaitingStart2) :
    acceptByte P d b =
      if b = P.magic1 then
        .next ({ d with live := .readingHeader [], acc := addByte d.acc P.magic1 }, .inProgress)
      else .next ({ d with live := .awaitingStart1, acc := 0#16 }, .error .invalidStartByte) := by
  rw [acceptByte, select_awaitingStart2 P b h]
  by_cases hb : b = P.magic1 <;> simp [perform, opS2Hit, opS2Miss, h, hb]

theorem acceptByte_header_acc (P : Config.Params) {d : Pfd} (b : Byte) {hb : List Byte}
    (h : d.live = .readingHeader hb) (hl : hb.length ≠ 5) :
    acceptByte P d b =
      .next ({ d with live := .readingHeader (hb ++ [b]), acc := addByte d.acc b }, .inProgress) := by
  rw [acceptByte, select_readingHeader P b h]
  simp [full, h, hl, perform, opHdrAcc]

theorem acceptByte_header_end (P : Config.Params) {d : Pfd} (b : Byte) {h0 h1 h2 h3 h4 : Byte}
    (h : d.live = .readingHeader [h0, h1, h2, h3, h4]) :
    acceptByte P d b =
      if le16 h0 h1 = 0#16 then
        .next ({ d with
          live := .readingChecksum []
          msg := { withHeader d.msg h0 h1 h2 h3 h4 b with payload := [] }
          acc := addByte d.acc b }, .inProgress)
      else
        .next ({ d with
          live := .readingPayload []
          msg := withHeader d.msg h0 h1 h2 h3 h4 b
          acc := addByte d.acc b }, .inProgress) := by
  rw [acceptByte, select_readingHeader P b h]
  by_cases hz : le16 h0 h1 = 0#16 <;> simp [full, lz, h, hz, perform, opHdrEnd0, opHdrEndN]

theorem acceptByte_payload (P : Config.Params) {d : Pfd} (b : Byte) {pb : Memory}
    (h : d.live = .readingPayload pb) :
    acceptByte P d b =
      if pb.length + 1 = d.msg.payloadLength.toNat then
        .next ({ d with
          live := .readingChecksum []
          msg := { d.msg with payload := Memory.append pb b }
          acc := addByte d.acc b }, .inProgress)
      else
        .next ({ d with live := .readingPayload (Memory.append pb b), acc := addByte d.acc b },
          .inProgress) := by
  rw [acceptByte, select_readingPayload P b h]
  by_cases hl : pb.length + 1 = d.msg.payloadLength.toNat <;>
    simp [full, h, hl, perform, opPayAcc, opPayEnd]

theorem acceptByte_trailer_acc (P : Config.Params) {d : Pfd} (b : Byte) {cb : List Byte}
    (h : d.live = .readingChecksum cb) (hl : cb.length ≠ 1) :
    acceptByte P d b = .next ({ d with live := .readingChecksum (cb ++ [b]) }, .inProgress) := by
  rw [acceptByte, select_readingChecksum P b h]
  simp [full, h, hl, perform, opCkAcc]

theorem acceptByte_trailer_end (P : Config.Params) {d : Pfd} (b : Byte) {c0 : Byte}
    (h : d.live = .readingChecksum [c0]) :
    acceptByte P d b =
      if le16 c0 b = cksum P d.msg then
        .next (finalize .success (withTrailer d.msg c0 b) d, .success (withTrailer d.msg c0 b))
      else
        .next (finalize .checksumError (withTrailer d.msg c0 b) d,
          .error (.checksumError (withTrailer d.msg c0 b))) := by
  rw [acceptByte, select_readingChecksum P b h]
  by_cases hc : le16 c0 b = cksum P d.msg <;>
    simp [full, ckok, h, hc, perform, opCkOk, opCkBad, valid]

theorem acceptByte_unassigned (P : Config.Params) {d : Pfd} (b : Byte) {c : UnassignedCode}
    (h : d.live = .unassigned c) : acceptByte P d b = .fault .stuckPhase := by
  rw [acceptByte, select_unassigned P b h]

theorem acceptByte_powerUp (P : Config.Params) {d : Pfd} (b : Byte) (h : d.live = .powerUp) :
    acceptByte P d b = .refused .neverReset := by
  rw [acceptByte, select_powerUp P b h]

/-- Everything an accepted byte can do: one of the twelve operations (R58), each with what it needs of the
state. -/
theorem acceptByte_cases {P : Config.Params} {d e : Pfd} {b : Byte} {r : Result}
    (h : acceptByte P d b = .next (e, r)) :
    (d.live = .awaitingStart1 ∧ b = P.magic0 ∧ r = .inProgress ∧
      e = { d with live := .awaitingStart2, acc := zext16 P.magic0 }) ∨
    (d.live = .awaitingStart1 ∧ b ≠ P.magic0 ∧ r = .error .invalidStartByte ∧ e = d) ∨
    (d.live = .awaitingStart2 ∧ b = P.magic1 ∧ r = .inProgress ∧
      e = { d with live := .readingHeader [], acc := addByte d.acc P.magic1 }) ∨
    (d.live = .awaitingStart2 ∧ b ≠ P.magic1 ∧ r = .error .invalidStartByte ∧
      e = { d with live := .awaitingStart1, acc := 0#16 }) ∨
    (∃ hb, d.live = .readingHeader hb ∧ hb.length ≠ 5 ∧ r = .inProgress ∧
      e = { d with live := .readingHeader (hb ++ [b]), acc := addByte d.acc b }) ∨
    (∃ h0 h1 h2 h3 h4, d.live = .readingHeader [h0, h1, h2, h3, h4] ∧ le16 h0 h1 = 0#16 ∧
      r = .inProgress ∧
      e = { d with
        live := .readingChecksum []
        msg := { withHeader d.msg h0 h1 h2 h3 h4 b with payload := [] }
        acc := addByte d.acc b }) ∨
    (∃ h0 h1 h2 h3 h4, d.live = .readingHeader [h0, h1, h2, h3, h4] ∧ le16 h0 h1 ≠ 0#16 ∧
      r = .inProgress ∧
      e = { d with
        live := .readingPayload []
        msg := withHeader d.msg h0 h1 h2 h3 h4 b
        acc := addByte d.acc b }) ∨
    (∃ pb, d.live = .readingPayload pb ∧ pb.length + 1 ≠ d.msg.payloadLength.toNat ∧ r = .inProgress ∧
      e = { d with live := .readingPayload (Memory.append pb b), acc := addByte d.acc b }) ∨
    (∃ pb, d.live = .readingPayload pb ∧ pb.length + 1 = d.msg.payloadLength.toNat ∧ r = .inProgress ∧
      e = { d with
        live := .readingChecksum []
        msg := { d.msg with payload := Memory.append pb b }
        acc := addByte d.acc b }) ∨
    (∃ cb, d.live = .readingChecksum cb ∧ cb.length ≠ 1 ∧ r = .inProgress ∧
      e = { d with live := .readingChecksum (cb ++ [b]) }) ∨
    (∃ c0, d.live = .readingChecksum [c0] ∧ le16 c0 b = cksum P d.msg ∧
      r = .success (withTrailer d.msg c0 b) ∧ e = finalize .success (withTrailer d.msg c0 b) d) ∨
    (∃ c0, d.live = .readingChecksum [c0] ∧ le16 c0 b ≠ cksum P d.msg ∧
      r = .error (.checksumError (withTrailer d.msg c0 b)) ∧
      e = finalize .checksumError (withTrailer d.msg c0 b) d) := by
  cases hl : d.live with
  | awaitingStart1 =>
    rw [acceptByte_awaitingStart1 P b hl] at h
    split at h <;> cases h <;> simp_all
  | awaitingStart2 =>
    rw [acceptByte_awaitingStart2 P b hl] at h
    split at h <;> cases h <;> simp_all
  | readingHeader hb =>
    by_cases h5 : hb.length = 5
    · match hb, h5 with
      | [h0, h1, h2, h3, h4], _ =>
        rw [acceptByte_header_end P b hl] at h
        split at h <;> cases h <;> simp_all
    · rw [acceptByte_header_acc P b hl h5] at h
      cases h; simp_all
  | readingPayload pb =>
    rw [acceptByte_payload P b hl] at h
    split at h <;> cases h <;> simp_all
  | readingChecksum cb =>
    by_cases h1 : cb.length = 1
    · match cb, h1 with
      | [c0], _ =>
        rw [acceptByte_trailer_end P b hl] at h
        split at h <;> cases h <;> simp_all
    · rw [acceptByte_trailer_acc P b hl h1] at h
      cases h; simp_all
  | unassigned c => rw [acceptByte_unassigned P b hl] at h; cases h
  | powerUp => rw [acceptByte_powerUp P b hl] at h; cases h

/-- In a phase of R11 every byte is accepted (R61, R120 (c)). -/
theorem acceptByte_answers (P : Config.Params) {d : Pfd} (b : Byte) (h : d.live.assigned) :
    ∃ e r, acceptByte P d b = .next (e, r) := by
  cases hl : d.live with
  | awaitingStart1 => rw [acceptByte_awaitingStart1 P b hl]; split <;> exact ⟨_, _, rfl⟩
  | awaitingStart2 => rw [acceptByte_awaitingStart2 P b hl]; split <;> exact ⟨_, _, rfl⟩
  | readingHeader hb =>
    by_cases h5 : hb.length = 5
    · match hb, h5 with
      | [h0, h1, h2, h3, h4], _ =>
        rw [acceptByte_header_end P b hl]; split <;> exact ⟨_, _, rfl⟩
    · exact ⟨_, _, acceptByte_header_acc P b hl h5⟩
  | readingPayload pb => rw [acceptByte_payload P b hl]; split <;> exact ⟨_, _, rfl⟩
  | readingChecksum cb =>
    by_cases h1 : cb.length = 1
    · match cb, h1 with
      | [c0], _ => rw [acceptByte_trailer_end P b hl]; split <;> exact ⟨_, _, rfl⟩
    · exact ⟨_, _, acceptByte_trailer_acc P b hl h1⟩
  | unassigned c => simp [hl, Live.assigned] at h
  | powerUp => simp [hl, Live.assigned] at h

/-- `exec` on an operation of R58 is the block operation, reported. -/
theorem exec_perform {i : Instr} (h : i.dispatched = true) (s : State) :
    exec i s = report (perform Config.params i s.pfd) s := by
  cases i <;> first | rfl | (exact absurd h (by decide)) | (simp [Instr.dispatched] at h)

/-- What is selected is well formed, is one of the twelve, and is an operation of the byte accepted. -/
theorem select_wf {P : Config.Params} {d : Pfd} {b : Byte} {i : Instr} (h : select P d b = .next i) :
    i.wf P = true ∧ i.dispatched = true ∧ acceptedByte P i = some b := by
  cases hl : d.live with
  | awaitingStart1 =>
    rw [select_awaitingStart1 P b hl] at h; cases h
    by_cases hb : b = P.magic0 <;> simp [hb, Instr.wf, Instr.dispatched, acceptedByte]
  | awaitingStart2 =>
    rw [select_awaitingStart2 P b hl] at h; cases h
    by_cases hb : b = P.magic1 <;> simp [hb, Instr.wf, Instr.dispatched, acceptedByte]
  | readingHeader hb =>
    rw [select_readingHeader P b hl] at h; cases h
    cases full d <;> cases lz d <;> simp [Instr.wf, Instr.dispatched, acceptedByte]
  | readingPayload hb =>
    rw [select_readingPayload P b hl] at h; cases h
    cases full d <;> simp [Instr.wf, Instr.dispatched, acceptedByte]
  | readingChecksum hb =>
    rw [select_readingChecksum P b hl] at h; cases h
    cases full d <;> cases ckok P d b <;> simp [Instr.wf, Instr.dispatched, acceptedByte]
  | unassigned c => rw [select_unassigned P b hl] at h; cases h
  | powerUp => rw [select_powerUp P b hl] at h; cases h

/-- A step on a byte performs the operation selected. -/
theorem acceptByte_of_select {P : Config.Params} {d : Pfd} {b : Byte} {i : Instr} (h : select P d b = .next i) :
    acceptByte P d b = perform P i d := by rw [acceptByte, h]

/-- In a phase of R11 every byte selects an operation (R59). -/
theorem select_answers {P : Config.Params} {d : Pfd} (b : Byte) (h : d.live.assigned) :
    ∃ i, select P d b = .next i := by
  obtain ⟨e, r, hr⟩ := acceptByte_answers P b h
  unfold acceptByte at hr
  cases hs : select P d b with
  | next i => exact ⟨i, rfl⟩
  | fault f => simp [hs] at hr
  | refused f => simp [hs] at hr

/-- A step on a byte leaves the block in a phase of R11. -/
theorem assigned_next {P : Config.Params} {d e : Pfd} {b : Byte} {r : Result} (h : acceptByte P d b = .next (e, r)) :
    e.live.assigned := by
  rcases acceptByte_cases h with h | h | h | h | ⟨_, h⟩ | ⟨_, _, _, _, _, h⟩ | ⟨_, _, _, _, _, h⟩ | ⟨_, h⟩ | ⟨_, h⟩ | ⟨_, h⟩ | ⟨_, h⟩ | ⟨_, h⟩ <;>
    obtain ⟨hl, -, -, rfl⟩ := h <;> simp [Live.assigned, hl]

/-- An operation performed is the one its byte selects (R58). -/
theorem perform_next {P : Config.Params} {i : Instr} {d e : Pfd} {r : Result}
    (h : perform P i d = .next (e, r)) :
    ∃ b, acceptedByte P i = some b ∧ select P d b = .next i := by
  cases i with
  | s1Hit =>
    simp only [perform, opS1Hit] at h
    split at h
    · rename_i hl; exact ⟨_, rfl, by rw [select_awaitingStart1 P _ hl]; simp⟩
    · cases h
  | s1Miss b =>
    simp only [perform, opS1Miss] at h
    split at h
    · rename_i hl
      split at h
      · cases h
      · rename_i hb; exact ⟨_, rfl, by rw [select_awaitingStart1 P _ hl]; simp [hb]⟩
    · cases h
  | s2Hit =>
    simp only [perform, opS2Hit] at h
    split at h
    · rename_i hl; exact ⟨_, rfl, by rw [select_awaitingStart2 P _ hl]; simp⟩
    · cases h
  | s2Miss b =>
    simp only [perform, opS2Miss] at h
    split at h
    · rename_i hl
      split at h
      · cases h
      · rename_i hb; exact ⟨_, rfl, by rw [select_awaitingStart2 P _ hl]; simp [hb]⟩
    · cases h
  | hdrAcc b =>
    simp only [perform, opHdrAcc] at h
    split at h
    · rename_i hl
      split at h
      · cases h
      · rename_i hb; exact ⟨_, rfl, by rw [select_readingHeader P _ hl]; simp [full, hl, hb]⟩
    · cases h
  | hdrEnd0 b =>
    simp only [perform, opHdrEnd0] at h
    split at h
    · rename_i hl
      split at h
      · rename_i hz; exact ⟨_, rfl, by rw [select_readingHeader P _ hl]; simp [full, lz, hl, hz]⟩
      · cases h
    · cases h
  | hdrEndN b =>
    simp only [perform, opHdrEndN] at h
    split at h
    · rename_i hl
      split at h
      · cases h
      · rename_i hz; exact ⟨_, rfl, by rw [select_readingHeader P _ hl]; simp [full, lz, hl, hz]⟩
    · cases h
  | payAcc b =>
    simp only [perform, opPayAcc] at h
    split at h
    · rename_i hl
      split at h
      · cases h
      · rename_i hb; exact ⟨_, rfl, by rw [select_readingPayload P _ hl]; simp [full, hl, hb]⟩
    · cases h
  | payEnd b =>
    simp only [perform, opPayEnd] at h
    split at h
    · rename_i hl
      split at h
      · rename_i hb; exact ⟨_, rfl, by rw [select_readingPayload P _ hl]; simp [full, hl, hb]⟩
      · cases h
    · cases h
  | ckAcc b =>
    simp only [perform, opCkAcc] at h
    split at h
    · rename_i hl
      split at h
      · cases h
      · rename_i hb; exact ⟨_, rfl, by rw [select_readingChecksum P _ hl]; simp [full, hl, hb]⟩
    · cases h
  | ckOk b =>
    simp only [perform, opCkOk] at h
    split at h
    · rename_i hl
      split at h
      · rename_i hv
        exact ⟨_, rfl, by rw [select_readingChecksum P _ hl]; simp_all [full, ckok, valid]⟩
      · cases h
    · cases h
  | ckBad b =>
    simp only [perform, opCkBad] at h
    split at h
    · rename_i hl
      split at h
      · cases h
      · rename_i hv
        exact ⟨_, rfl, by rw [select_readingChecksum P _ hl]; simp_all [full, ckok, valid]⟩
    · cases h
  | reset => cases h
  | cksum m => cases h
  | valid m => cases h
  | length m => cases h
  | setcrc m => cases h
  | serialize m => cases h
  | step b => cases h
  | feed bs => cases h
  | frame id src dst p => cases h
  | framex len id src dst p c => cases h
  | noise bs => cases h

/-- An operation performed is a step on its byte: what it can do is what `acceptByte_cases` says. -/
theorem acceptByte_of_perform {P : Config.Params} {i : Instr} {d e : Pfd} {r : Result}
    (h : perform P i d = .next (e, r)) :
    ∃ b, acceptedByte P i = some b ∧ select P d b = .next i ∧ acceptByte P d b = .next (e, r) := by
  obtain ⟨b, hb, hs⟩ := perform_next h
  exact ⟨b, hb, hs, by rw [acceptByte_of_select hs, h]⟩

end Machine

end Sys2Proof
end

