-- ==== Sys2Proof/Laws/PerInstr.lean ====
section
/-! SUPPORT. A family of statements with one lemma for every operation. -/

namespace Sys2Proof.Laws.Encoding

/-- An operation has a dispatch word exactly when a byte selects it (R66), and the low byte of the word is the
byte accepted (R57). -/
def Statement (i : Instr) : Prop :=
  ∀ P : Config.Params, (encodeWord P i).isSome = i.dispatched ∧
    (encodeWord P i).map (fun w => w.extractLsb' 0 8) = Machine.acceptedByte P i

/-- The operations of R58. -/
theorem of_word {i : Instr} (hd : i.dispatched = true)
    (hw : ∀ P, ∃ c f l k b, encodeWord P i = some (mkWord c f l k b) ∧ Machine.acceptedByte P i = some b) :
    Statement i := fun P => by
  obtain ⟨c, f, l, k, b, h, hb⟩ := hw P
  rw [h, hb, hd]
  exact ⟨rfl, congrArg some (mkWord_byte c f l k b)⟩

/-- The others. -/
theorem of_none {i : Instr} (hd : i.dispatched = false) (hw : ∀ P, encodeWord P i = none)
    (hb : ∀ P, Machine.acceptedByte P i = none) : Statement i := fun P => by
  rw [hw, hb, hd]; exact ⟨rfl, rfl⟩

theorem s1Hit : Statement .s1Hit := of_word rfl fun _ => ⟨_, _, _, _, _, rfl, rfl⟩
theorem s1Miss (b : Byte) : Statement (.s1Miss b) := of_word rfl fun _ => ⟨_, _, _, _, _, rfl, rfl⟩
theorem s2Hit : Statement .s2Hit := of_word rfl fun _ => ⟨_, _, _, _, _, rfl, rfl⟩
theorem s2Miss (b : Byte) : Statement (.s2Miss b) := of_word rfl fun _ => ⟨_, _, _, _, _, rfl, rfl⟩
theorem hdrAcc (b : Byte) : Statement (.hdrAcc b) := of_word rfl fun _ => ⟨_, _, _, _, _, rfl, rfl⟩
theorem hdrEnd0 (b : Byte) : Statement (.hdrEnd0 b) := of_word rfl fun _ => ⟨_, _, _, _, _, rfl, rfl⟩
theorem hdrEndN (b : Byte) : Statement (.hdrEndN b) := of_word rfl fun _ => ⟨_, _, _, _, _, rfl, rfl⟩
theorem payAcc (b : Byte) : Statement (.payAcc b) := of_word rfl fun _ => ⟨_, _, _, _, _, rfl, rfl⟩
theorem payEnd (b : Byte) : Statement (.payEnd b) := of_word rfl fun _ => ⟨_, _, _, _, _, rfl, rfl⟩
theorem ckAcc (b : Byte) : Statement (.ckAcc b) := of_word rfl fun _ => ⟨_, _, _, _, _, rfl, rfl⟩
theorem ckOk (b : Byte) : Statement (.ckOk b) := of_word rfl fun _ => ⟨_, _, _, _, _, rfl, rfl⟩
theorem ckBad (b : Byte) : Statement (.ckBad b) := of_word rfl fun _ => ⟨_, _, _, _, _, rfl, rfl⟩
theorem reset : Statement .reset := of_none rfl (fun _ => rfl) fun _ => rfl
theorem cksum (m : Message) : Statement (.cksum m) := of_none rfl (fun _ => rfl) fun _ => rfl
theorem valid (m : Message) : Statement (.valid m) := of_none rfl (fun _ => rfl) fun _ => rfl
theorem length (m : Message) : Statement (.length m) := of_none rfl (fun _ => rfl) fun _ => rfl
theorem setcrc (m : Message) : Statement (.setcrc m) := of_none rfl (fun _ => rfl) fun _ => rfl
theorem serialize (m : Message) : Statement (.serialize m) := of_none rfl (fun _ => rfl) fun _ => rfl
theorem step (b : Byte) : Statement (.step b) := of_none rfl (fun _ => rfl) fun _ => rfl
theorem feed (bs : List Byte) : Statement (.feed bs) := of_none rfl (fun _ => rfl) fun _ => rfl
theorem frame (id : U16) (src : Byte) (dst : Byte) (p : List Byte) :
    Statement (.frame id src dst p) := of_none rfl (fun _ => rfl) fun _ => rfl
theorem framex (len : U16) (id : U16) (src : Byte) (dst : Byte) (p : List Byte) (c : U16) :
    Statement (.framex len id src dst p c) := of_none rfl (fun _ => rfl) fun _ => rfl
theorem noise (bs : List Byte) : Statement (.noise bs) := of_none rfl (fun _ => rfl) fun _ => rfl

end Sys2Proof.Laws.Encoding
end

