-- ==== Sys2Proof/Laws/Stream.lean ====
section
/-! SUPPORT. Several bytes in a row, the loop of `FEED`, and what a machine step does with each kind of item. -/

namespace Sys2Proof.Machine

/-! ### Several bytes -/

@[simp] theorem acceptBytes_nil (P : Config.Params) (d : Pfd) : acceptBytes P d [] = .next (d, []) := rfl

/-- A byte that answers, before bytes that answer. -/
theorem acceptBytes_cons {P : Config.Params} {d e f : Pfd} {b : Byte} {bs : List Byte} {r : Result}
    {rs : List Result} (h : acceptByte P d b = .next (e, r)) (hs : acceptBytes P e bs = .next (f, rs)) :
    acceptBytes P d (b :: bs) = .next (f, r :: rs) := by
  simp only [acceptBytes, h, hs]

/-- The only way a sequence of bytes answers: its first byte answers, and the rest after it. -/
theorem acceptBytes_cons_next {P : Config.Params} {d e : Pfd} {b : Byte} {bs : List Byte} {rs : List Result}
    (h : acceptBytes P d (b :: bs) = .next (e, rs)) :
    ∃ x r qs, acceptByte P d b = .next (x, r) ∧ acceptBytes P x bs = .next (e, qs) ∧ rs = r :: qs := by
  unfold acceptBytes at h
  split at h
  · rename_i x r hx
    split at h
    · rename_i y qs hy; cases h; exact ⟨x, r, qs, hx, hy, rfl⟩
    · cases h
    · cases h
  · cases h
  · cases h

/-- One sequence after another (R42). -/
theorem acceptBytes_append {P : Config.Params} {d e f : Pfd} {bs cs : List Byte} {rs qs : List Result}
    (h : acceptBytes P d bs = .next (e, rs)) (hs : acceptBytes P e cs = .next (f, qs)) :
    acceptBytes P d (bs ++ cs) = .next (f, rs ++ qs) := by
  induction bs generalizing d rs with
  | nil => cases h; exact hs
  | cons b bs ih =>
    obtain ⟨x, r, ps, h1, h2, rfl⟩ := acceptBytes_cons_next h
    exact acceptBytes_cons h1 (ih h2)

/-- One `Result` for each byte (R121). -/
theorem acceptBytes_length {P : Config.Params} {d e : Pfd} {bs : List Byte} {rs : List Result}
    (h : acceptBytes P d bs = .next (e, rs)) : rs.length = bs.length := by
  induction bs generalizing d rs with
  | nil => cases h; rfl
  | cons b bs ih =>
    obtain ⟨x, r, ps, -, h2, rfl⟩ := acceptBytes_cons_next h
    simp [ih h2]

/-- From a phase of R11, bytes lead to phases of R11 only. -/
theorem acceptBytes_assigned {P : Config.Params} {d e : Pfd} {bs : List Byte} {rs : List Result}
    (hd : d.live.assigned) (h : acceptBytes P d bs = .next (e, rs)) : e.live.assigned := by
  induction bs generalizing d rs with
  | nil => cases h; exact hd
  | cons b bs ih =>
    obtain ⟨x, r, ps, h1, h2, rfl⟩ := acceptBytes_cons_next h
    exact ih (assigned_next h1) h2

/-! ### The loop of `FEED` (R123) -/

@[simp] theorem feedLoop_nil (P : Config.Params) (n : Nat) (d : Pfd) :
    feedLoop P [] n d = .next (d, .inProgress, n) := rfl

theorem feedLoop_goes_on {P : Config.Params} {d e : Pfd} {b : Byte} (bs : List Byte) (n : Nat)
    (h : acceptByte P d b = .next (e, .inProgress)) :
    feedLoop P (b :: bs) n d = feedLoop P bs (n + 1) e := by
  simp only [feedLoop, h]

theorem feedLoop_stops {P : Config.Params} {d e : Pfd} {b : Byte} {r : Result} (bs : List Byte) (n : Nat)
    (h : acceptByte P d b = .next (e, r)) (hr : r ≠ .inProgress) :
    feedLoop P (b :: bs) n d = .next (e, r, n + 1) := by
  cases r <;> simp_all [feedLoop]

/-! ### One machine step, by the item it takes -/

/-- With a byte that answers, the machine takes over the block and reports the `Result`. -/
theorem step_byte {s : State} {b : Byte} {rest : List Item} {e : Pfd} {r : Result}
    (hi : s.input = .byte b :: rest) (h : acceptByte Config.params s.pfd b = .next (e, r)) :
    step s = .next { consume s with pfd := e, result := some r } := by
  cases hs : select Config.params s.pfd b with
  | next i =>
    simp only [step, fetch, hi, fetchCycle, fetchByte, hs, Bool.false_eq_true, if_false, if_true]
    rw [exec_perform (select_wf hs).2.1, consume_pfd, ← acceptByte_of_select hs, h]; rfl
  | fault f => simp [acceptByte, hs] at h
  | refused x => simp [acceptByte, hs] at h

/-- With a host call, the machine runs it. -/
theorem step_call {s : State} {i : Instr} {rest : List Item} (hi : s.input = .call i :: rest)
    (h : i.dispatched = false) : step s = exec i (consume s) := by
  simp [step, fetch, hi, h]

/-! ### The checksum over more or other bytes -/

theorem addBytes_snoc (s : U16) (bs : List Byte) (b : Byte) :
    addBytes s (bs ++ [b]) = addByte (addBytes s bs) b := by
  simp [addBytes_append]

/-- The bytes of a frame are the bytes its checksum sums, then its trailer (R74). -/
theorem serialize_eq (P : Config.Params) (m : Message) :
    serialize P m = summedBytes P m ++ [lo8 m.checksum, hi8 m.checksum] := rfl

/-- `FRAME` stands for the bytes of `SERIALIZE(SETCRC(M))` (R65). -/
theorem frameOf_eq (P : Config.Params) (id : U16) (src dst : Byte) (p : List Byte) :
    frameOf P id src dst p = serialize P (frameMessage P id src dst p) := rfl

end Sys2Proof.Machine
end

