-- ==== Sys2Proof/Tests/Slice0.lean ====
section
/-! SUPPORT. The model's own tests. Expected values are those of `95_test_vectors.md` (its ids are named) or written
out from the rule named; they are not the model's answers. -/

namespace Sys2Proof.Tests

open Sys2Proof Sys2Proof.Machine

/-! ### Helpers -/

/-- A machine whose block is at the given phase, message and sum; the rest is as after reset. -/
def at_ (l : Live) (m : Message) (acc : U16) : State :=
  { State.reset with pfd := { live := l, msg := m, acc := acc, res := none } }

/-- The outcome is a next state with the given property. -/
def gives (o : Host.Outcome State Fault Refusal) (p : State → Bool) : Bool :=
  match o with
  | .next t => p t
  | .fault _ | .refused _ => false

/-- The outcome is that fault. -/
def faults (o : Host.Outcome State Fault Refusal) (f : Fault) : Bool :=
  match o with
  | .fault g => f == g
  | .next _ | .refused _ => false

/-- The outcome is that refusal. -/
def refuses (o : Host.Outcome State Fault Refusal) (x : Refusal) : Bool :=
  match o with
  | .refused y => x == y
  | .next _ | .fault _ => false

/-- The byte selects that operation. -/
def selects (d : Pfd) (b : Byte) (i : Instr) : Bool :=
  match select Config.params d b with
  | .next j => i == j
  | .fault _ | .refused _ => false

/-- The message of E1, its checksum apart. -/
def m1 (p : List Byte) (c : U16) : Message := ⟨3#16, 1#16, 1#8, 2#8, p, c⟩

/-- The payload of E1. -/
def p1 : List Byte := [0x10#8, 0x20#8, 0x30#8]

/-- The block as the trailer of E1 begins, with the trailer bytes taken. -/
def trailer (cb : List Byte) : State := at_ (.readingChecksum cb) (m1 p1 0#16) 0x00FB#16

/-- The header of E1 with the bytes taken. -/
def header (hb : List Byte) (acc : U16) : State := at_ (.readingHeader hb) initialMessage acc

/-- The block after E1: `RES` holds its message. -/
def afterE1 : Pfd := { Pfd.initial with res := some ⟨.success, m1 p1 0x00FB#16⟩ }

/-! ### WellFormed: one ill-formed term for each check -/

theorem test_wf_s1Miss : Instr.wf Config.params (.s1Miss 0x42#8) = false := by decide
theorem test_wf_s2Miss : Instr.wf Config.params (.s2Miss 0x52#8) = false := by decide
theorem test_wf_serialize : Instr.wf Config.params (.serialize (m1 [0x10#8] 0#16)) = false := by decide
theorem test_wf_frame :
    Instr.wf Config.params (.frame 0#16 0#8 0#8 (List.replicate 65536 0#8)) = false := by
  rw [Instr.wf, List.length_replicate]; decide
theorem test_wf_item : Item.wf Config.params (.call .s1Hit) = false := by decide
theorem test_wf_item_inner : Item.wf Config.params (.call (.serialize (m1 [] 0#16))) = false := by decide
theorem test_wf_accepts :
    Item.wf Config.params (.call (.serialize (m1 p1 0#16))) = true ∧
      Item.wf Config.params (.cycle ⟨true, true, 0xFF#8⟩) = true ∧
      Instr.wf Config.params (.s1Miss 0x52#8) = true := by decide

/-! ### Decoding: the dispatch words written out bit by bit (R57, R58), `PHASE FULL LZ CKOK b` -/

theorem test_decode_s1Hit : decodeTableWord 16 0b00_000_0_0_0_01000010 = some .s1Hit := by decide
theorem test_decode_s1Miss : decodeTableWord 16 0b00_000_0_0_0_11000010 = some (.s1Miss 0xC2#8) := by decide
theorem test_decode_s2Hit : decodeTableWord 16 0b00_001_0_0_0_01010010 = some .s2Hit := by decide
theorem test_decode_s2Miss : decodeTableWord 16 0b00_001_0_0_0_01000010 = some (.s2Miss 0x42#8) := by decide
theorem test_decode_hdrAcc : decodeTableWord 16 0b00_010_0_0_0_00000011 = some (.hdrAcc 0x03#8) := by decide
theorem test_decode_hdrEnd0 : decodeTableWord 16 0b00_010_1_1_0_01010101 = some (.hdrEnd0 0x55#8) := by decide
theorem test_decode_hdrEndN : decodeTableWord 16 0b00_010_1_0_0_00000010 = some (.hdrEndN 0x02#8) := by decide
theorem test_decode_payAcc : decodeTableWord 16 0b00_011_0_0_0_00010000 = some (.payAcc 0x10#8) := by decide
theorem test_decode_payEnd : decodeTableWord 16 0b00_011_1_0_0_00110000 = some (.payEnd 0x30#8) := by decide
theorem test_decode_ckAcc : decodeTableWord 16 0b00_100_0_0_0_11111011 = some (.ckAcc 0xFB#8) := by decide
theorem test_decode_ckOk : decodeTableWord 16 0b00_100_1_0_1_00000000 = some (.ckOk 0x00#8) := by decide
theorem test_decode_ckBad : decodeTableWord 16 0b00_100_1_0_0_10111110 = some (.ckBad 0xBE#8) := by decide

/-- The unassigned phase codes match no row (R59), and a word has 14 bits (R57). -/
theorem test_decode_refused :
    decodeTableWord 16 0b00_101_0_0_0_00000000 = none ∧ decodeTableWord 16 0b00_110_1_1_1_11111111 = none ∧
      decodeTableWord 16 0b00_111_0_0_1_01000010 = none ∧ decodeTableWord 16 0b01_000_0_0_0_01000010 = none := by
  decide

theorem test_decode_errors :
    (decode Config.params [0x42#8]).toOption = none ∧
      (decode Config.params [0x02#8, 0x14#8, 0x77#8]).toOption = some (.hdrEndN 0x02#8, [0x77#8]) := by decide

/-- The dispatch words of E1's bytes 8 and 13 and of V20. -/
theorem test_dispatchWord :
    dispatchWord Config.params (header [3#8, 0#8, 1#8, 0#8, 1#8] 0x0099#16).pfd 0x02#8 = some 0x1402#14 ∧
      dispatchWord Config.params (trailer [0xFB#8]).pfd 0x00#8 = some 0x2500#14 ∧
      dispatchWord Config.params (header [0#8, 0#8, 0#8, 0#8, 0#8] 0x0094#16).pfd 0x55#8 = some 0x1655#14 := by
  decide

/-! ### One step each -/

/-- V15. -/
theorem test_s1Hit :
    gives (exec .s1Hit State.reset) (fun t => decide (t.pfd.live = .awaitingStart2 ∧ t.pfd.acc = 0x0042#16 ∧
      t.result = some .inProgress)) = true := by decide
/-- V15e: all eight bits are compared. -/
theorem test_s1Miss :
    selects State.reset.pfd 0xC2#8 (.s1Miss 0xC2#8) = true ∧
      gives (exec (.s1Miss 0xC2#8) State.reset) (fun t => decide (t.pfd = State.reset.pfd ∧
        t.result = some (.error .invalidStartByte))) = true := by decide
/-- V16d: a miss does not touch `RES`. -/
theorem test_s1Miss_keeps_res :
    gives (exec (.s1Miss 0#8) { State.reset with pfd := afterE1 }) (fun t => decide (t.pfd = afterE1)) = true := by
  decide
/-- V16. -/
theorem test_s2Hit :
    gives (exec .s2Hit (at_ .awaitingStart2 initialMessage 0x0042#16)) (fun t => decide
      (t.pfd.live = .readingHeader [] ∧ t.pfd.acc = 0x0094#16 ∧ t.result = some .inProgress)) = true := by decide
/-- V16b: the `42` is not kept as a new first magic byte. -/
theorem test_s2Miss :
    selects (at_ .awaitingStart2 initialMessage 0x0042#16).pfd 0x42#8 (.s2Miss 0x42#8) = true ∧
      gives (exec (.s2Miss 0x42#8) (at_ .awaitingStart2 initialMessage 0x0042#16)) (fun t => decide
        (t.pfd.live = .awaitingStart1 ∧ t.result = some (.error .invalidStartByte))) = true := by decide
/-- V18a: a magic byte is data in the header. -/
theorem test_hdrAcc :
    selects (header [3#8, 0#8] 0x0097#16).pfd 0x42#8 (.hdrAcc 0x42#8) = true ∧
      gives (exec (.hdrAcc 0x42#8) (header [3#8, 0#8] 0x0097#16)) (fun t => decide
        (t.pfd.live = .readingHeader [3#8, 0#8, 0x42#8] ∧ t.pfd.acc = 0x00D9#16)) = true := by decide
/-- V23. -/
theorem test_hdrEnd0 :
    gives (exec (.hdrEnd0 0x52#8) (header [0#8, 0#8, 0x42#8, 0x52#8, 0x42#8] 0x016A#16)) (fun t => decide
      (t.pfd.live = .readingChecksum [] ∧ t.pfd.msg = ⟨0#16, 0x5242#16, 0x42#8, 0x52#8, [], 0#16⟩ ∧
        t.pfd.acc = 0x01BC#16 ∧ t.result = some .inProgress)) = true := by decide
/-- V21: the low byte comes first. -/
theorem test_hdrEndN :
    selects (header [0#8, 1#8, 0#8, 0#8, 0#8] 0x0095#16).pfd 0#8 (.hdrEndN 0#8) = true ∧
      gives (exec (.hdrEndN 0#8) (header [0#8, 1#8, 0#8, 0#8, 0#8] 0x0095#16)) (fun t => decide
        (t.pfd.live = .readingPayload [] ∧ t.pfd.msg.payloadLength = 256#16)) = true := by decide
/-- V22: the greatest length. -/
theorem test_hdrEndN_max :
    gives (exec (.hdrEndN 0xFF#8) (header [0xFF#8, 0xFF#8, 0xFF#8, 0xFF#8, 0xFF#8] 0x058F#16)) (fun t => decide
      (t.pfd.msg.payloadLength = 65535#16 ∧ t.pfd.acc = 0x068E#16)) = true := by decide
/-- V24. -/
theorem test_payAcc :
    gives (exec (.payAcc 0x10#8) (at_ (.readingPayload []) (m1 [] 0#16) 0x009B#16)) (fun t => decide
      (t.pfd.live = .readingPayload [0x10#8] ∧ t.pfd.acc = 0x00AB#16)) = true := by decide
/-- V25. -/
theorem test_payEnd :
    gives (exec (.payEnd 0x30#8) (at_ (.readingPayload [0x10#8, 0x20#8]) (m1 [] 0#16) 0x00CB#16)) (fun t => decide
      (t.pfd.live = .readingChecksum [] ∧ t.pfd.msg.payload = p1 ∧ t.pfd.acc = 0x00FB#16)) = true := by decide
/-- V26: with length 1 the first byte is the last. -/
theorem test_payEnd_one :
    selects (at_ (.readingPayload []) ⟨1#16, 3#16, 4#8, 5#8, [], 0#16⟩ 0x00A1#16).pfd 0#8 (.payEnd 0#8) = true := by
  decide
/-- V29: the trailer is not summed. -/
theorem test_ckAcc :
    gives (exec (.ckAcc 0xFB#8) (trailer [])) (fun t => decide
      (t.pfd.live = .readingChecksum [0xFB#8] ∧ t.pfd.acc = 0x00FB#16 ∧ t.result = some .inProgress)) = true := by
  decide
/-- V30. -/
theorem test_ckOk :
    gives (exec (.ckOk 0#8) (trailer [0xFB#8])) (fun t => decide
      (t.pfd = afterE1 ∧ t.result = some (.success (m1 p1 0x00FB#16)))) = true := by decide
/-- V31b: the trailer's bytes swapped. -/
theorem test_ckBad :
    selects (trailer [0#8]).pfd 0xFB#8 (.ckBad 0xFB#8) = true ∧
      gives (exec (.ckBad 0xFB#8) (trailer [0#8])) (fun t => decide
        (t.pfd = { Pfd.initial with res := some ⟨.checksumError, m1 p1 0xFB00#16⟩ } ∧
          t.result = some (.error (.checksumError (m1 p1 0xFB00#16))))) = true := by decide
/-- V32: a trailer that looks like a frame start. -/
theorem test_ckBad_magic :
    gives (exec (.ckBad 0x52#8) (at_ (.readingChecksum [0x42#8]) initialMessage 0x0094#16)) (fun t => decide
      (t.result = some (.error (.checksumError ⟨0#16, 0#16, 0#8, 0#8, [], 0x5242#16⟩)))) = true := by decide
/-- V52. -/
theorem test_reset :
    gives (exec .reset { State.reset with pfd := { afterE1 with live := .readingPayload p1, acc := 7#16 } })
      (fun t => decide (t.pfd = State.reset.pfd ∧ t.result = none)) = true := by decide
/-- R160: the one operation of a block that was never reset. -/
theorem test_reset_powerUp :
    gives (exec .reset State.powerUp) (fun t => decide (t = State.reset)) = true := by decide
/-- V2, V5. -/
theorem test_cksum :
    gives (exec (.cksum (m1 p1 0#16)) State.reset) (fun t => decide (t.value = some (.word 0x00FB#16))) = true ∧
      gives (exec (.cksum ⟨1#16, 2#16, 2#8, 1#8, [0xFF#8], 0#16⟩) State.reset) (fun t => decide
        (t.value = some (.word 0x0199#16))) = true := by decide
/-- V8: the sum wraps. -/
theorem test_cksum_wraps :
    cksum Config.params ⟨300#16, 0x0102#16, 3#8, 4#8, List.replicate 300 0xFF#8, 0#16⟩ = 0x2B9F#16 := by
  apply BitVec.eq_of_toNat_eq
  rw [cksum_eq_sum, addBytes_toNat]
  simp only [summedBytes, List.map_append, List.map_replicate, List.sum_append, List.sum_replicate]
  decide
/-- Section 2.1: `VALID` with the fields of V2. -/
theorem test_valid :
    gives (exec (.valid (m1 p1 0x00FB#16)) State.reset) (fun t => decide (t.value = some (.bit true))) = true ∧
      gives (exec (.valid (m1 p1 0xFB00#16)) State.reset) (fun t => decide
        (t.value = some (.bit false))) = true := by decide
/-- V13: the 17th bit. -/
theorem test_length :
    gives (exec (.length ⟨65526#16, 0#16, 0#8, 0#8, [], 0#16⟩) State.reset) (fun t => decide
      (t.value = some (.size 0x10000#17))) = true := by decide
/-- Section 2.6, `SETCRC`. -/
theorem test_setcrc :
    gives (exec (.setcrc (m1 p1 0xBEEF#16)) State.reset) (fun t => decide
      (t.value = some (.message (m1 p1 0x00FB#16)))) = true := by decide
/-- Section 2.6, `SERIALIZE` with a stale checksum. -/
theorem test_serialize :
    gives (exec (.serialize (m1 p1 0xBEEF#16)) State.reset) (fun t => decide
      (t.value = some (.bytes [0x42#8, 0x52#8, 3#8, 0#8, 1#8, 0#8, 1#8, 2#8, 0x10#8, 0x20#8, 0x30#8, 0xEF#8,
        0xBE#8]))) = true := by decide
/-- U8. -/
theorem test_serialize_incomplete :
    refuses (exec (.serialize (m1 [0x10#8] 0#16)) State.reset) .incompleteMessage = true := by decide
/-- R120's example. -/
theorem test_step :
    gives (exec (.step 0x42#8) State.reset) (fun t => decide
      (t.pfd.live = .awaitingStart2 ∧ t.result = some .inProgress)) = true := by decide
/-- V59. -/
theorem test_feed :
    gives (exec (.feed [0x42#8, 0#8, 0x52#8]) State.reset) (fun t => decide
      (t.value = some (.fed (.error .invalidStartByte) 2) ∧ t.pfd.live = .awaitingStart1)) = true := by decide
/-- V57. -/
theorem test_feed_runs_out :
    gives (exec (.feed [0x42#8, 0x52#8, 3#8, 0#8]) State.reset) (fun t => decide
      (t.value = some (.fed .inProgress 4) ∧ t.pfd.live = .readingHeader [3#8, 0#8])) = true := by decide
/-- V42. -/
theorem test_frame :
    gives (exec (.frame 2#16 2#8 1#8 [0xFF#8]) State.reset) (fun t => decide
      (t.input = [.byte 0x42#8, .byte 0x52#8, .byte 1#8, .byte 0#8, .byte 2#8, .byte 0#8, .byte 2#8, .byte 1#8,
        .byte 0xFF#8, .byte 0x99#8, .byte 1#8])) = true := by decide
/-- V37's stream: the length field is as given, whatever the number of payload bytes. -/
theorem test_framex :
    gives (exec (.framex 1#16 1#16 1#8 2#8 p1 0x00FB#16) State.reset) (fun t => decide
      (t.input = [.byte 0x42#8, .byte 0x52#8, .byte 1#8, .byte 0#8, .byte 1#8, .byte 0#8, .byte 1#8, .byte 2#8,
        .byte 0x10#8, .byte 0x20#8, .byte 0x30#8, .byte 0xFB#8, .byte 0#8])) = true := by decide
/-- P2's noise, in front of what is still to come. -/
theorem test_noise :
    gives (exec (.noise [0#8, 0x52#8]) { State.reset with input := [.rst] }) (fun t => decide
      (t.input = [.byte 0#8, .byte 0x52#8, .rst])) = true := by decide

/-! ### The machine's step -/

/-- V53: `RESET` wins over the byte. -/
theorem test_step_reset_wins :
    gives (step { at_ .awaitingStart2 initialMessage 0x0042#16 with input := [.cycle ⟨true, true, 0x52#8⟩] })
      (fun t => decide (t.pfd = State.reset.pfd ∧ t.result = none ∧ t.input = [])) = true := by decide
/-- V60. -/
theorem test_step_idle :
    gives (step { trailer [0xFB#8] with result := some .inProgress, input := [.idle, .byte 0#8] })
      (fun t => decide (t.pfd = (trailer [0xFB#8]).pfd ∧ t.result = none ∧ t.input = [.byte 0#8])) = true := by
  decide
/-- R39: a byte that gives an error is consumed like any other. -/
theorem test_step_byte :
    gives (step { State.reset with input := [.byte 0x52#8, .byte 0x42#8] })
      (fun t => decide (t.result = some (.error .invalidStartByte) ∧ t.input = [.byte 0x42#8])) = true := by decide
/-- R160, U6, R64. -/
theorem test_step_stops :
    refuses (step { State.powerUp with input := [.byte 0x42#8] }) .neverReset = true ∧
      faults (step { at_ (.unassigned .c101) initialMessage 0#16 with input := [.byte 0x42#8] }) .stuckPhase = true ∧
      refuses (step { State.reset with input := [.call .s1Hit] }) .notInput = true := by decide
/-- A word of `CK.OK`, placed after reset, is run by the next step. -/
theorem test_withFetchWord_ckOk :
    gives (step (State.reset.withFetchWord 16 0x2502)) (fun t => decide
      (t.pfd.live = .awaitingStart1 ∧ t.pfd.resValid = true ∧ t.input = [])) = true := by decide
/-- V18's word. -/
theorem test_withFetchWord_hdrAcc :
    gives (step (State.reset.withFetchWord 16 0x1003)) (fun t => decide
      (t.pfd.live = .readingHeader [3#8] ∧ t.pfd.acc = 0x0097#16)) = true := by decide

/-- V54: what the ports show of E1's message, the last readable index among it. -/
theorem test_ports :
    let o := portsOut Config.params { State.reset with pfd := afterE1 } 2#16
    o.msgValid = true ∧ o.msgKind = 0b001#3 ∧ o.msgPayloadLength = 3#16 ∧ o.msgMessageId = 1#16 ∧
      o.msgSrcDeviceId = 1#8 ∧ o.msgDstDeviceId = 2#8 ∧ o.msgChecksum = 0x00FB#16 ∧ o.msgRdData = 0x30#8 := by
  decide
/-- V54: index 3 has no byte. -/
theorem test_read_outside : afterE1.readRes 3 = none ∧ afterE1.readRes 0 = some 0x10#8 := by decide

/-! ### Witnesses: states and operands that meet the hypotheses of the statements in `Obligations.lean`, one theorem
a statement, each clause at a boundary of its range -/

/-- Magic bytes that are equal (R84 (c)). -/
def equalMagic : Config.Params := { Config.params with magic1 := 0x42#8 }

/-- The block in the middle of E1's payload, E1's message of an earlier frame still in `RES`. -/
def midPayload : Pfd :=
  { live := .readingPayload [0x10#8], msg := m1 [] 0#16, acc := 0x00AB#16,
    res := some ⟨.success, m1 p1 0x00FB#16⟩ }

/-- The block with the last trailer byte of E1 awaited, and nothing in `RES`. -/
def lastByte : Pfd := (trailer [0xFB#8]).pfd

theorem midPayload_inv : Pfd.Inv Config.params midPayload where
  phase := (by decide : 1 ≤ (3#16).toNat ∧ [0x10#8].length < (3#16).toNat ∧
    (0x00AB#16) = addBytes 0#16 (summedBytes Config.params { m1 [] 0#16 with payload := [0x10#8] }))
  dead := (by decide : (m1 [] 0#16).payload = [] ∧ (m1 [] 0#16).checksum = 0#16)
  bank := fun _ h => by cases h; decide

theorem lastByte_inv : Pfd.Inv Config.params lastByte where
  phase := (by decide : p1.length = (3#16).toNat ∧ [0xFB#8].length ≤ 1 ∧
    (0x00FB#16) = cksum Config.params (m1 p1 0#16))
  dead := (by decide : (m1 p1 0#16).checksum = 0#16)
  bank := fun _ h => by cases h

theorem fiveHeaderBytes_inv :
    Pfd.Inv Config.params (header [3#8, 0#8, 1#8, 0#8, 1#8] 0x0099#16).pfd where
  phase := (by decide : [3#8, 0#8, 1#8, 0#8, 1#8].length ≤ 5 ∧
    (0x0099#16) = addBytes 0#16 ([0x42#8, 0x52#8] ++ [3#8, 0#8, 1#8, 0#8, 1#8]))
  dead := (rfl : initialMessage = initialMessage)
  bank := fun _ h => by cases h

theorem witness_S1HitTakesTheFirstMagicByte : State.reset.pfd.live = .awaitingStart1 := rfl

theorem witness_S1MissChangesNothing :
    State.reset.pfd.live = .awaitingStart1 ∧ (0x43#8) ≠ Config.params.magic0 ∧
      (0x41#8) ≠ Config.params.magic0 := by decide

theorem witness_S2HitOpensTheHeader :
    (at_ .awaitingStart2 initialMessage 0x0042#16).pfd.live = .awaitingStart2 := rfl

theorem witness_S2MissFallsBack :
    (at_ .awaitingStart2 initialMessage 0x0042#16).pfd.live = .awaitingStart2 ∧
      (0x53#8) ≠ Config.params.magic1 ∧ (0x42#8) ≠ Config.params.magic1 := by decide

theorem witness_HdrAccAppendsTheByte :
    ((header [] 0x0094#16).pfd.live = .readingHeader [] ∧ ([] : List Byte).length ≤ 4) ∧
      (header [3#8, 0#8, 1#8, 0#8] 0x0098#16).pfd.live = .readingHeader [3#8, 0#8, 1#8, 0#8] ∧
      [3#8, 0#8, 1#8, 0#8].length ≤ 4 := by decide

theorem witness_HdrEnd0SkipsThePayload :
    (header [0#8, 0#8, 0x34#8, 0x12#8, 0xAA#8] 0x0184#16).pfd.live =
        .readingHeader [0#8, 0#8, 0x34#8, 0x12#8, 0xAA#8] ∧ (0#8 ++ 0#8 : U16) = 0#16 := by decide

/-- Lengths 1, 256 and 65535. -/
theorem witness_HdrEndNOpensThePayload :
    (header [1#8, 0#8, 3#8, 0#8, 4#8] 0x009C#16).pfd.live = .readingHeader [1#8, 0#8, 3#8, 0#8, 4#8] ∧
      (0#8 ++ 1#8 : U16) ≠ 0#16 ∧ (1#8 ++ 0#8 : U16) ≠ 0#16 ∧ (0xFF#8 ++ 0xFF#8 : U16) ≠ 0#16 := by decide

/-- The block of V28: a payload one byte shorter than its last. -/
def longPayload (n : Nat) : State :=
  at_ (.readingPayload (List.replicate n 0#8)) ⟨65535#16, 0#16, 0#8, 0#8, [], 0#16⟩ 0x0292#16

/-- Length 2 with nothing taken, and V28. -/
theorem witness_PayAccAppendsTheByte :
    ((at_ (.readingPayload []) ⟨2#16, 0#16, 0#8, 0#8, [], 0#16⟩ 0#16).pfd.live = .readingPayload [] ∧
        ([] : Memory).length + 1 < (2#16).toNat) ∧
      (longPayload 65533).pfd.live = .readingPayload (List.replicate 65533 0#8) ∧
      (List.replicate 65533 (0#8)).length + 1 < (longPayload 65533).pfd.msg.payloadLength.toNat :=
  ⟨⟨rfl, by decide⟩, rfl, by rw [List.length_replicate]; decide⟩

/-- V26 and V28a. -/
theorem witness_PayEndMovesTheBuffer :
    ((at_ (.readingPayload []) ⟨1#16, 3#16, 4#8, 5#8, [], 0#16⟩ 0x00A1#16).pfd.live = .readingPayload [] ∧
        ([] : Memory).length + 1 = (1#16).toNat) ∧
      (longPayload 65534).pfd.live = .readingPayload (List.replicate 65534 0#8) ∧
      (List.replicate 65534 (0#8)).length + 1 = (longPayload 65534).pfd.msg.payloadLength.toNat :=
  ⟨⟨rfl, by decide⟩, rfl, by rw [List.length_replicate]; decide⟩

theorem witness_CkAccKeepsTheLowByte : (trailer []).pfd.live = .readingChecksum [] := rfl

theorem witness_CkOkDeliversTheMessage :
    (trailer [0xFB#8]).pfd.live = .readingChecksum [0xFB#8] ∧
      (0x00#8 ++ 0xFB#8 : U16) = cksum Config.params (trailer [0xFB#8]).pfd.msg := by decide

/-- V31a and V31: either byte of the trailer counts. -/
theorem witness_CkBadDeliversTheMessage :
    ((trailer [0xFB#8]).pfd.live = .readingChecksum [0xFB#8] ∧
        (0x01#8 ++ 0xFB#8 : U16) ≠ cksum Config.params (trailer [0xFB#8]).pfd.msg) ∧
      (trailer [0xFA#8]).pfd.live = .readingChecksum [0xFA#8] ∧
      (0x00#8 ++ 0xFA#8 : U16) ≠ cksum Config.params (trailer [0xFA#8]).pfd.msg := by decide

/-- A complete message, one with no payload, and one byte too many. -/
theorem witness_SerializeWritesTheFrame :
    (m1 p1 0#16).payload.length = (m1 p1 0#16).payloadLength.toNat ∧
      initialMessage.payload.length = initialMessage.payloadLength.toNat ∧
      (m1 (p1 ++ [0#8]) 0#16).payload.length ≠ (m1 (p1 ++ [0#8]) 0#16).payloadLength.toNat := by decide

/-- All five phases. -/
theorem witness_StepPerformsTheSelectedOperation :
    State.reset.pfd.live.assigned ∧ (at_ .awaitingStart2 initialMessage 0x0042#16).pfd.live.assigned ∧
      (header [] 0x0094#16).pfd.live.assigned ∧ midPayload.live.assigned ∧ lastByte.live.assigned :=
  ⟨trivial, trivial, trivial, trivial, trivial⟩

/-- V56 and V57: one `FEED` stops, the other runs out. -/
theorem witness_FeedStopsAtTheFirstResult :
    State.reset.pfd.live.assigned ∧
      gives (exec (.feed [0#8, 0x42#8, 0x52#8]) State.reset) (fun t => decide
        (t.value = some (.fed (.error .invalidStartByte) 1))) = true ∧
      gives (exec (.feed []) State.reset) (fun t => decide (t.value = some (.fed .inProgress 0))) = true :=
  ⟨trivial, by decide, by decide⟩

/-- 65535 payload bytes, the most a `FRAME` may have, and one more. -/
theorem witness_PseudoOperationsExpandToTheirBytes :
    (List.replicate 65535 (0#8)).length ≤ 65535 ∧ 65535 < (List.replicate 65536 (0#8)).length := by
  rw [List.length_replicate, List.length_replicate]; decide

/-- The ten operations, each in a state in which it runs. -/
theorem witness_AccumulatingOperationsLeaveResAlone :
    (∃ t, exec .s1Hit { State.reset with pfd := afterE1 } = .next t) ∧
      (∃ t, exec (.s1Miss 0#8) { State.reset with pfd := afterE1 } = .next t) ∧
      (∃ t, exec .s2Hit (at_ .awaitingStart2 initialMessage 0x0042#16) = .next t) ∧
      (∃ t, exec (.s2Miss 0#8) (at_ .awaitingStart2 initialMessage 0x0042#16) = .next t) ∧
      (∃ t, exec (.hdrAcc 3#8) (header [] 0x0094#16) = .next t) ∧
      (∃ t, exec (.hdrEnd0 5#8) (header [0#8, 0#8, 0#8, 0#8, 0#8] 0x0094#16) = .next t) ∧
      (∃ t, exec (.hdrEndN 2#8) (header [3#8, 0#8, 1#8, 0#8, 1#8] 0x0099#16) = .next t) ∧
      (∃ t, exec (.payAcc 0x20#8) { State.reset with pfd := midPayload } = .next t) ∧
      (∃ t, exec (.payEnd 0x30#8) (at_ (.readingPayload [0x10#8, 0x20#8]) (m1 [] 0#16) 0x00CB#16) = .next t) ∧
      (∃ t, exec (.ckAcc 0xFB#8) (trailer []) = .next t) :=
  ⟨⟨_, rfl⟩, ⟨_, rfl⟩, ⟨_, rfl⟩, ⟨_, rfl⟩, ⟨_, rfl⟩, ⟨_, rfl⟩, ⟨_, rfl⟩, ⟨_, rfl⟩, ⟨_, rfl⟩, ⟨_, rfl⟩⟩

/-- Index 2 is the last of a payload of three. -/
theorem witness_FinalizingOperationsWriteOnlyTheBlock :
    (∃ t, exec (.ckOk 0#8) (trailer [0xFB#8]) = .next t) ∧ (∃ t, exec (.ckBad 1#8) (trailer [0xFB#8]) = .next t) ∧
      2 < (trailer [0xFB#8]).pfd.msg.payloadLength.toNat := ⟨⟨_, rfl⟩, ⟨_, rfl⟩, by decide⟩

theorem witness_FunctionsLeaveTheBlockAlone :
    ∃ t, exec (.serialize (m1 p1 0x00FB#16)) { State.reset with pfd := midPayload } = .next t ∧
      (∃ u, exec (.frame 1#16 1#8 2#8 p1) { State.reset with pfd := midPayload } = .next u) :=
  ⟨_, rfl, _, rfl⟩

theorem witness_PayAccWritesOneIndex :
    midPayload.live = .readingPayload [0x10#8] ∧
      ∃ t, exec (.payAcc 0x20#8) { State.reset with pfd := midPayload } = .next t := ⟨rfl, _, rfl⟩

/-- A byte, a call the host may make, and one it may not. -/
theorem witness_StepRunsTheDecodedOperation :
    (({ State.reset with input := [.byte 0x42#8, .idle] } : State).input = .cycle ⟨false, true, 0x42#8⟩ :: [.idle] ∧
        dispatchWord Config.params State.reset.pfd 0x42#8 = some 0x0042#14 ∧
        decodeWord Config.params 0x0042#14 = .ok .s1Hit) ∧
      (({ State.reset with input := [.call .reset] } : State).input = .call .reset :: [] ∧
        Instr.dispatched .reset = false) ∧
      ({ State.reset with input := [.call .s1Hit] } : State).input = .call .s1Hit :: [] ∧
      Instr.dispatched .s1Hit = true := ⟨⟨rfl, by decide, rfl⟩, ⟨rfl, rfl⟩, rfl, rfl⟩

theorem witness_IdleCycleChangesNothing :
    ({ State.reset with input := [.cycle ⟨false, false, 7#8⟩] } : State).input = .cycle ⟨false, false, 7#8⟩ :: [] ∧
      State.reset.input = [] := ⟨rfl, rfl⟩

/-- With a byte in the same cycle and without. -/
theorem witness_ResetWinsOverAByte :
    ({ State.reset with pfd := midPayload, input := [.cycle ⟨true, true, 0x52#8⟩] } : State).input =
        .cycle ⟨true, true, 0x52#8⟩ :: [] ∧
      ({ State.reset with input := [.rst] } : State).input = .cycle ⟨true, false, 0#8⟩ :: [] := ⟨rfl, rfl⟩

theorem witness_NeverResetAndStuckPhasesStop :
    (({ State.powerUp with input := [.byte 0x42#8] } : State).input = .cycle ⟨false, true, 0x42#8⟩ :: [] ∧
        State.powerUp.pfd.live = .powerUp) ∧
      ({ at_ (.unassigned .c111) initialMessage 0#16 with input := [.byte 0x42#8] } : State).input =
        .cycle ⟨false, true, 0x42#8⟩ :: [] ∧
      (at_ (.unassigned .c111) initialMessage 0#16).pfd.live = .unassigned .c111 := ⟨⟨rfl, rfl⟩, rfl, rfl⟩

/-- Two bytes with gaps before and between them. -/
theorem witness_GapsBetweenBytesDoNotMatter :
    let ps : List PortIn := [⟨false, false, 9#8⟩, ⟨false, true, 0x42#8⟩, ⟨false, false, 0#8⟩, ⟨false, true, 0x52#8⟩]
    ({ State.reset with input := ps.map Item.cycle } : State).input = ps.map Item.cycle ∧
      (∀ p ∈ ps, p.rst = false) ∧
      ∃ d rs, acceptBytes Config.params State.reset.pfd ((ps.filter (·.inValid)).map (·.inData)) = .next (d, rs) :=
  ⟨rfl, by decide, _, _, rfl⟩

/-- The greatest assigned code and the least unassigned one. -/
theorem witness_AssignedPhasesDecode :
    ((0x2000#14).extractLsb' 11 3).toNat = 4 ∧ ((0x2800#14).extractLsb' 11 3).toNat = 5 := by decide

theorem witness_DecodeOfEncode :
    Instr.wf Config.params (.s1Miss 0x52#8) = true ∧ Instr.dispatched (.s1Miss 0x52#8) = true ∧
      Instr.wf equalMagic (.s2Miss 0xFF#8) = true ∧ Instr.dispatched (.s2Miss 0xFF#8) = true := by decide

theorem witness_FormedWordsAreCanonical :
    dispatchWord Config.params lastByte 0#8 = some 0x2500#14 ∧
      decodeWord Config.params 0x2500#14 = .ok (.ckOk 0#8) := ⟨by decide, rfl⟩

/-- One byte that selects its operation, and one that does not. -/
theorem witness_OperationsRunExactlyWhereSelected :
    (acceptedByte Config.params .s1Hit = some 0x42#8 ∧
        select Config.params State.reset.pfd 0x42#8 = .next .s1Hit) ∧
      acceptedByte Config.params (.ckBad 0#8) = some 0#8 ∧
      selects (trailer [0xFB#8]).pfd 0#8 (.ckBad 0#8) = false := ⟨⟨rfl, rfl⟩, rfl, by decide⟩

theorem witness_OutcomesAreTheFour : lastByte.live.assigned := trivial

/-- Each of the three results. -/
theorem witness_ErrorsAreRaisedExactlyWhen :
    (∃ e, acceptByte Config.params State.reset.pfd 0x43#8 = .next (e, .error .invalidStartByte)) ∧
      (∃ e m, acceptByte Config.params lastByte 1#8 = .next (e, .error (.checksumError m))) ∧
      (∃ e m, acceptByte Config.params lastByte 0#8 = .next (e, .success m)) :=
  ⟨⟨_, rfl⟩, ⟨_, _, rfl⟩, ⟨_, _, rfl⟩⟩

/-- All four results, the error of `S2.MISS` among them. -/
theorem witness_ResultsDetermineResAndReset :
    (∃ e m, acceptByte Config.params lastByte 0#8 = .next (e, .success m)) ∧
      (∃ e m, acceptByte Config.params lastByte 1#8 = .next (e, .error (.checksumError m))) ∧
      (∃ e, acceptByte Config.params (at_ .awaitingStart2 initialMessage 0x0042#16).pfd 0x42#8 =
        .next (e, .error .invalidStartByte)) ∧
      (∃ e, acceptByte Config.params midPayload 0x20#8 = .next (e, .inProgress)) :=
  ⟨⟨_, _, rfl⟩, ⟨_, _, rfl⟩, ⟨_, rfl⟩, ⟨_, rfl⟩⟩

/-- V55: misses and a frame in progress. -/
theorem witness_ResStandsUntilTheNextFinalizingStep :
    ∃ e, acceptBytes Config.params afterE1 [0#8, 0x42#8, 0x52#8, 5#8] =
        .next (e, [.error .invalidStartByte, .inProgress, .inProgress, .inProgress]) ∧
      ∀ r ∈ [Result.error .invalidStartByte, .inProgress, .inProgress, .inProgress], ¬ r.finalizes :=
  ⟨_, rfl, by simp [Result.finalizes]⟩

/-- V40: ten bytes do. -/
theorem witness_FinalizingStepsAreTenBytesApart :
    ∃ e rs m, acceptBytes Config.params State.reset.pfd
        [0x42#8, 0x52#8, 0#8, 0#8, 0#8, 0#8, 0#8, 0#8, 0x94#8, 0#8] = .next (e, rs ++ [.success m]) ∧
      Result.finalizes (.success m) :=
  ⟨_, List.replicate 9 .inProgress, _, rfl, trivial⟩

/-- The last readable index of a bank, a reported `Result`, and a bank of the other kind. -/
theorem witness_PortsShowResultAndBank :
    let s : State := { State.reset with pfd := afterE1, result := some .inProgress }
    s.pfd.live ≠ .powerUp ∧ s.result = some .inProgress ∧ s.pfd.res = some ⟨.success, m1 p1 0x00FB#16⟩ ∧
      (2#16).toNat < (m1 p1 0x00FB#16).payloadLength.toNat ∧
      (m1 p1 0x00FB#16).payload[(2#16).toNat]? = some 0x30#8 := by decide

/-- Two blocks with one bank: one at rest, one in the middle of a frame. -/
theorem witness_PortsHideTheMessageInProgress :
    afterE1.live.assigned ∧ midPayload.live.assigned ∧ afterE1.res = midPayload.res := ⟨trivial, trivial, rfl⟩

theorem witness_AcceptedByteKeepsTheInvariant :
    Pfd.Inv Config.params midPayload ∧ (∃ e r, acceptByte Config.params midPayload 0x20#8 = .next (e, r)) ∧
      Pfd.Inv Config.params lastByte ∧ ∃ e r, acceptByte Config.params lastByte 0#8 = .next (e, r) :=
  ⟨midPayload_inv, ⟨_, _, rfl⟩, lastByte_inv, _, _, rfl⟩

/-- A machine in the middle of a frame, a host call among its items. -/
def busy : State :=
  { State.reset with
    pfd := midPayload
    input := [.byte 0x20#8, .call (.feed [0x30#8]), .call (.frame 1#16 1#8 2#8 p1), .cycle ⟨true, true, 1#8⟩] }

theorem busy_inv : busy.Inv Config.params where
  block := midPayload_inv
  report := by simp [State.reportInv, busy, State.reset]

theorem witness_StepKeepsTheInvariant : busy.Inv Config.params ∧ ∃ t, step busy = .next t :=
  ⟨busy_inv, _, rfl⟩

theorem witness_SafeMachineRunsForEver : busy.Safe where
  inv := busy_inv
  host := (by decide : ∀ x ∈ busy.input, x.wf Config.params = true)

/-- Each clause: a payload, a trailer, a header, a bank. -/
theorem witness_BuffersFitThePayloadMemory :
    (Pfd.Inv Config.params midPayload ∧ midPayload.live = .readingPayload [0x10#8] ∧
        midPayload.res = some ⟨.success, m1 p1 0x00FB#16⟩) ∧
      (Pfd.Inv Config.params lastByte ∧ lastByte.live = .readingChecksum [0xFB#8]) ∧
      Pfd.Inv Config.params (header [3#8, 0#8, 1#8, 0#8, 1#8] 0x0099#16).pfd ∧
      (header [3#8, 0#8, 1#8, 0#8, 1#8] 0x0099#16).pfd.live = .readingHeader [3#8, 0#8, 1#8, 0#8, 1#8] :=
  ⟨⟨midPayload_inv, rfl, rfl⟩, ⟨lastByte_inv, rfl⟩, fiveHeaderBytes_inv, rfl⟩

/-- A byte that advances the position and one that returns it to 0. -/
theorem witness_PositionAdvancesByOneOrReturns :
    (Pfd.Inv Config.params midPayload ∧ ∃ e, acceptByte Config.params midPayload 0x20#8 = .next (e, .inProgress)) ∧
      Pfd.Inv Config.params lastByte ∧ ∃ e m, acceptByte Config.params lastByte 0#8 = .next (e, .success m) :=
  ⟨⟨midPayload_inv, _, rfl⟩, lastByte_inv, _, _, rfl⟩

theorem witness_DispatchRefinesTheListing : ∀ cb, lastByte.live = .readingChecksum cb → cb.length ≤ 1 :=
  fun _ h => by cases h; decide

/-- A message with its checksum, one with another, and one without a payload. -/
theorem witness_FramesRoundTrip :
    ((m1 p1 0x00FB#16).payload.length = (m1 p1 0x00FB#16).payloadLength.toNat ∧ afterE1.live = .awaitingStart1 ∧
        (m1 p1 0x00FB#16).checksum = cksum Config.params (m1 p1 0x00FB#16)) ∧
      (m1 p1 0xBEEF#16).checksum ≠ cksum Config.params (m1 p1 0xBEEF#16) ∧
      initialMessage.payload.length = initialMessage.payloadLength.toNat := by decide

theorem witness_FrameInTheStreamIsDelivered :
    let s : State := { State.reset with pfd := afterE1, input := [.call (.frame 1#16 1#8 2#8 p1), .byte 0x42#8] }
    s.pfd.live = .awaitingStart1 ∧ p1.length ≤ 65535 ∧
      s.input = .call (.frame 1#16 1#8 2#8 p1) :: [.byte 0x42#8] := by decide

/-- V17d's five and V17c's four. -/
theorem witness_RepeatedFirstMagicByteParity :
    Config.params.magic0 ≠ Config.params.magic1 ∧ afterE1.live = .awaitingStart1 ∧ 5 % 2 = 1 ∧ 4 % 2 = 0 := by decide

theorem witness_EqualMagicBytesFillTheHeader :
    equalMagic.magic0 = equalMagic.magic1 ∧ State.reset.pfd.live = .awaitingStart1 ∧ 2 ≤ 2 ∧ 2 ≤ 7 ∧ 7 ≤ 7 := by decide

/-- A fresh block, and one whose dead elements and bank are not a fresh block's. -/
theorem witness_AwaitingStart1IsAsFresh :
    Pfd.initial.live = .awaitingStart1 ∧ ({ midPayload with live := .awaitingStart1 } : Pfd).live = .awaitingStart1 ∧
      ({ midPayload with live := .awaitingStart1 } : Pfd) ≠ Pfd.initial := by decide

/-- V27: the bytes declared are taken, two magic bytes among them. -/
theorem witness_DeclaredPayloadIsTakenWhole :
    midPayload.live = .readingPayload [0x10#8] ∧ ([0x42#8, 0x52#8] : List Byte) ≠ [] ∧
      [0x10#8].length + [0x42#8, 0x52#8].length = midPayload.msg.payloadLength.toNat := by decide

theorem witness_RecoveryIsBounded :
    Pfd.Inv Config.params midPayload ∧ (List.replicate 65544 (0x42#8)).length = 8 + 65535 + 2 - 1 :=
  ⟨midPayload_inv, List.length_replicate⟩

/-- V3. -/
theorem witness_CksumIgnoresPayloadOrder : p1.Perm [0x30#8, 0x20#8, 0x10#8] := by decide

theorem witness_SingleByteCorruptionIsDetected : (0x20#8) ≠ 0x21#8 := by decide

end Sys2Proof.Tests
end

section
/-! SUPPORT. The output ports of a block that has been reset, read off `RES`, the reported `Result` and the draw of
the cycle; and the statements about the reset state, `RESET` and what the ports hide. -/

namespace Sys2Proof.Machine

/-! ### The ports after the first `RESET` (R121, R124) -/

/-- A block in one of the five phases of R11 has been reset. -/
theorem assigned_ne_powerUp {l : Live} (h : l.assigned) : l ≠ .powerUp := by
  rintro rfl
  exact h

/-- The readable bytes are those of the bank (R32). -/
theorem readRes_congr {d e : Pfd} (h : d.res = e.res) (a : Nat) : d.readRes a = e.readRes a := by
  simp only [Pfd.readRes, h]

/-- Without a bank no byte is readable (U4). -/
theorem readRes_of_res_none {d : Pfd} (h : d.res = none) (a : Nat) : d.readRes a = none := by
  simp only [Pfd.readRes, h]

section
variable {s : State} (h : s.pfd.live ≠ .powerUp)
include h

theorem resValidPort_eq : resValidPort s = s.result.isSome := by
  unfold resValidPort
  split
  · contradiction
  · rfl

theorem resKindPort_eq (P : Config.Params) :
    resKindPort P s = (s.result.map (Result.code P.codes)).getD (Config.freeResKind s.draw) := by
  unfold resKindPort
  split
  · contradiction
  · next hr _ => rw [hr]; rfl
  · next hr _ => rw [hr]; rfl

theorem shownRes_eq : shownRes s = s.pfd.res := by
  unfold shownRes
  split
  · contradiction
  · rfl

theorem msgValidPort_eq : msgValidPort s = s.pfd.res.isSome := by
  unfold msgValidPort
  split
  · contradiction
  · rfl

theorem msgRdDataPort_eq (a : U16) :
    msgRdDataPort s a = (s.pfd.readRes a.toNat).getD (Config.freePayloadByte s.draw a.toNat) := by
  rw [msgRdDataPort, shownRes_eq h]
  cases hres : s.pfd.res with
  | some r => rfl
  | none => rw [readRes_of_res_none hres]; rfl

end

/-- After the first `RESET` the ports are a function of `RES`, the reported `Result` and the draw (R27). -/
theorem portsOut_congr (P : Config.Params) {s t : State} (a : U16) (hs : s.pfd.live ≠ .powerUp)
    (ht : t.pfd.live ≠ .powerUp) (hres : s.pfd.res = t.pfd.res) (hresult : s.result = t.result)
    (hdraw : s.draw = t.draw) : portsOut P s a = portsOut P t a := by
  have hvalid : resValidPort s = resValidPort t := by
    rw [resValidPort_eq hs, resValidPort_eq ht, hresult]
  have hkind : resKindPort P s = resKindPort P t := by
    rw [resKindPort_eq hs, resKindPort_eq ht, hresult, hdraw]
  have hshown : shownRes s = shownRes t := by
    rw [shownRes_eq hs, shownRes_eq ht, hres]
  have hmsg : msgValidPort s = msgValidPort t := by
    rw [msgValidPort_eq hs, msgValidPort_eq ht, hres]
  have hdata : msgRdDataPort s a = msgRdDataPort t a := by
    rw [msgRdDataPort_eq hs, msgRdDataPort_eq ht, readRes_congr hres, hdraw]
  simp only [portsOut, hvalid, hkind, hshown, hmsg, hdata, hdraw]

/-- Settles O44: once reset, the ports read nothing of the block but `RES`. -/
theorem portsHideTheMessageInProgress : Obligations.PortsHideTheMessageInProgress := by
  unfold Obligations.PortsHideTheMessageInProgress
  intro P s t a hs ht hres hresult hdraw
  exact portsOut_congr P a (assigned_ne_powerUp hs) (assigned_ne_powerUp ht) hres hresult hdraw

/-! ### Reset (R26, R122) -/

@[simp] theorem reset_pfd : State.reset.pfd = Pfd.initial := rfl

/-- `RESET` answers from every state and reads nothing of the block (R122). -/
theorem exec_reset (s : State) : exec .reset s = .next { s with pfd := Pfd.initial, result := none } := rfl

/-- Settles O1: the block of the reset state is the initial block, field by field. -/
theorem resetStateIsTheFreshDecoder : Obligations.ResetStateIsTheFreshDecoder := by
  unfold Obligations.ResetStateIsTheFreshDecoder
  rw [reset_pfd, initial_msg, Pfd.resValid, initial_res]
  exact ⟨initial_live, rfl, rfl, rfl, rfl, rfl, rfl, initial_acc, rfl⟩

/-- Settles O2: `RESET` writes the initial block, whose message is the initial message. -/
theorem resetRestoresTheFreshDecoder : Obligations.ResetRestoresTheFreshDecoder := by
  unfold Obligations.ResetRestoresTheFreshDecoder
  intro s
  rw [exec_reset, Pfd.initial, initialMessage]

end Sys2Proof.Machine
end

section
/-! SUPPORT. The checksum and the length in integers, what the functions of `40_checksum.md` answer, and the statements
about them. -/

namespace Sys2Proof.Machine

/-! ### Words, the checksum and the length in integers -/

theorem lo8_toNat (v : U16) : (lo8 v).toNat = v.toNat % 256 := by
  simp [lo8]

theorem hi8_toNat (v : U16) : (hi8 v).toNat = v.toNat / 256 := by
  have hv : v.toNat < 65536 := v.isLt
  simp only [hi8, BitVec.extractLsb'_toNat, Nat.shiftRight_eq_div_pow]
  omega

/-- The sum of R70 is over the frame's bytes before its trailer, and only its total is reduced (R72). -/
theorem cksum_toNat (P : Config.Params) (m : Message) :
    (cksum P m).toNat = ((summedBytes P m).map BitVec.toNat).sum % 65536 := by
  rw [cksum_eq_sum, addBytes_toNat, BitVec.toNat_zero, Nat.zero_add]

theorem sum_summedBytes (P : Config.Params) (m : Message) :
    ((summedBytes P m).map BitVec.toNat).sum =
      P.magic0.toNat + P.magic1.toNat + m.payloadLength.toNat % 256 + m.payloadLength.toNat / 256 +
        m.messageId.toNat % 256 + m.messageId.toNat / 256 +
        m.srcDeviceId.toNat + m.dstDeviceId.toNat + (m.payload.map BitVec.toNat).sum := by
  simp only [summedBytes, List.map_append, List.map_cons, List.map_nil, List.sum_append, List.sum_cons, List.sum_nil,
    lo8_toNat, hi8_toNat]
  omega

theorem valid_eq_decide (P : Config.Params) (m : Message) : valid P m = decide (m.checksum = cksum P m) :=
  Bool.eq_iff_iff.mpr ((valid_iff P m).trans decide_eq_true_iff.symm)

/-- 17 bits hold the greatest length, `10 + 65535` (R73). -/
theorem frameLength_toNat (m : Message) : (frameLength m).toNat = 10 + m.payloadLength.toNat := by
  have hlen : m.payloadLength.toNat < 65536 := m.payloadLength.isLt
  simp only [frameLength, Config.fixedLen, Config.trailerLen, BitVec.toNat_ofNat]
  omega

/-! ### What the functions answer (R66) -/

theorem exec_cksum (m : Message) (s : State) :
    exec (.cksum m) s = .next { s with value := some (.word (cksum Config.params m)) } := rfl

theorem exec_valid (m : Message) (s : State) :
    exec (.valid m) s = .next { s with value := some (.bit (valid Config.params m)) } := rfl

theorem exec_length (m : Message) (s : State) :
    exec (.length m) s = .next { s with value := some (.size (frameLength m)) } := rfl

/-! ### The statements -/

/-- Settles O15: the value is the integer sum of `summedBytes` reduced once, and that sum is R70's field by field. -/
theorem cksumIsTheSumModulo65536 : Obligations.CksumIsTheSumModulo65536 := by
  unfold Obligations.CksumIsTheSumModulo65536
  intro m s
  refine ⟨cksum Config.params m, exec_cksum m s, ?_⟩
  rw [cksum_toNat, sum_summedBytes]
  rfl

/-- Settles O16: both functions answer, and `VALID` decides equality with the word `CKSUM` answers. -/
theorem validComparesWithCksum : Obligations.ValidComparesWithCksum := by
  unfold Obligations.ValidComparesWithCksum
  intro m s
  refine ⟨cksum Config.params m, exec_cksum m s, ?_⟩
  rw [exec_valid, valid_eq_decide]

/-- Settles O17: `10 + payload_length` fits the 17 bits of the answer. -/
theorem lengthIsTenPlusThePayloadLength : Obligations.LengthIsTenPlusThePayloadLength := by
  unfold Obligations.LengthIsTenPlusThePayloadLength
  intro m s
  exact ⟨frameLength m, exec_length m s, frameLength_toNat m⟩

end Sys2Proof.Machine
end

section
/-! SUPPORT. An operation its byte selects runs as the step on that byte, and the statements about start detection
(`41_sync.md`). -/

namespace Sys2Proof.Machine

/-- What the dispatch selects for a byte, run as an operation, is `STEP` on that byte (R58, R120). -/
theorem exec_of_select {s : State} {b : Byte} {i : Instr} {e : Pfd} {r : Result}
    (hs : select Config.params s.pfd b = .next i) (ha : acceptByte Config.params s.pfd b = .next (e, r)) :
    exec i s = .next { s with pfd := e, result := some r } := by
  obtain ⟨-, hdispatched, -⟩ := select_wf hs
  rw [exec_perform hdispatched, ← acceptByte_of_select hs, ha, report_of_next]

/-! ### Start detection (R80 to R83) -/

/-- Settles O3: in AwaitingStart1 the byte is `MAGIC0`, the first branch of the selection and of the step. -/
theorem s1HitTakesTheFirstMagicByte : Obligations.S1HitTakesTheFirstMagicByte := by
  unfold Obligations.S1HitTakesTheFirstMagicByte
  intro s hl
  have hs : select Config.params s.pfd Config.params.magic0 = .next .s1Hit := by
    rw [select_awaitingStart1 _ _ hl, if_pos rfl]
  refine ⟨hs, exec_of_select hs ?_⟩
  rw [acceptByte_awaitingStart1 _ _ hl, if_pos rfl, zext16]

/-- Settles O4: in AwaitingStart1 the byte is not `MAGIC0`, and the step answers the block it was given. -/
theorem s1MissChangesNothing : Obligations.S1MissChangesNothing := by
  unfold Obligations.S1MissChangesNothing
  intro s b hl hb
  have hs : select Config.params s.pfd b = .next (.s1Miss b) := by
    rw [select_awaitingStart1 _ _ hl, if_neg hb]
  refine ⟨hs, exec_of_select hs ?_⟩
  rw [acceptByte_awaitingStart1 _ _ hl, if_neg hb]

/-- Settles O5: in AwaitingStart2 the byte is `MAGIC1`, the first branch of the selection and of the step. -/
theorem s2HitOpensTheHeader : Obligations.S2HitOpensTheHeader := by
  unfold Obligations.S2HitOpensTheHeader
  intro s hl
  have hs : select Config.params s.pfd Config.params.magic1 = .next .s2Hit := by
    rw [select_awaitingStart2 _ _ hl, if_pos rfl]
  refine ⟨hs, exec_of_select hs ?_⟩
  rw [acceptByte_awaitingStart2 _ _ hl, if_pos rfl, addByte, zext16]

/-- Settles O6: in AwaitingStart2 every byte but `MAGIC1` takes the second branch, `MAGIC0` among them. -/
theorem s2MissFallsBack : Obligations.S2MissFallsBack := by
  unfold Obligations.S2MissFallsBack
  intro s b hl hb
  have hs : select Config.params s.pfd b = .next (.s2Miss b) := by
    rw [select_awaitingStart2 _ _ hl, if_neg hb]
  refine ⟨hs, exec_of_select hs ?_⟩
  rw [acceptByte_awaitingStart2 _ _ hl, if_neg hb]

end Sys2Proof.Machine
end

section
/-! SUPPORT. Which operation a byte selects in ReadingHeader, by the count of header bytes held and the length they give
(R57, R58), and the statements about header accumulation (`42_header.md`). -/

namespace Sys2Proof.Machine

/-! ### The selection in ReadingHeader -/

theorem full_readingHeader {d : Pfd} {hb : List Byte} (h : d.live = .readingHeader hb) :
    full d = (hb.length == 5) := by
  rw [full, h]

theorem lz_readingHeader {d : Pfd} {h0 h1 h2 h3 h4 : Byte} (h : d.live = .readingHeader [h0, h1, h2, h3, h4]) :
    lz d = (le16 h0 h1 == 0#16) := by
  rw [lz, h]

/-- With a count other than 5 the byte does not fill the header, and every byte takes the row of `HDR.ACC`. -/
theorem select_header_acc (P : Config.Params) {d : Pfd} (b : Byte) {hb : List Byte}
    (h : d.live = .readingHeader hb) (hl : hb.length ≠ 5) : select P d b = .next (.hdrAcc b) := by
  have hfull : full d = false := by rw [full_readingHeader h, beq_eq_false_iff_ne]; exact hl
  rw [select_readingHeader P b h, hfull]
  rfl

/-- The sixth byte itself decides nothing: the length the first two give chooses between the `HDR.END` rows. -/
theorem select_header_end (P : Config.Params) {d : Pfd} (b : Byte) {h0 h1 h2 h3 h4 : Byte}
    (h : d.live = .readingHeader [h0, h1, h2, h3, h4]) :
    select P d b = .next (if le16 h0 h1 = 0#16 then .hdrEnd0 b else .hdrEndN b) := by
  have hfull : full d = true := full_readingHeader h
  rw [select_readingHeader P b h, hfull, lz_readingHeader h]
  simp only [if_true, beq_iff_eq]

/-! ### Header accumulation (R90 to R92) -/

/-- Settles O7: at most 4 bytes held are not 5, so the byte is appended. -/
theorem hdrAccAppendsTheByte : Obligations.HdrAccAppendsTheByte := by
  unfold Obligations.HdrAccAppendsTheByte
  intro s b hb hl hcount
  have hne : hb.length ≠ 5 := by omega
  have hs : select Config.params s.pfd b = .next (.hdrAcc b) := select_header_acc _ b hl hne
  refine ⟨hs, exec_of_select hs ?_⟩
  rw [acceptByte_header_acc _ _ hl hne, addByte, zext16]

/-- Settles O8: the length is 0, the first branch of the selection and of the step on the sixth byte. -/
theorem hdrEnd0SkipsThePayload : Obligations.HdrEnd0SkipsThePayload := by
  unfold Obligations.HdrEnd0SkipsThePayload
  intro s b h0 h1 h2 h3 h4 hl hz
  have hlen : le16 h0 h1 = 0#16 := hz
  have hs : select Config.params s.pfd b = .next (.hdrEnd0 b) := by
    rw [select_header_end _ _ hl, if_pos hlen]
  refine ⟨hs, exec_of_select hs ?_⟩
  rw [acceptByte_header_end _ _ hl, if_pos hlen, addByte, zext16, withHeader, le16, le16]

/-- Settles O9: the length is not 0, the second branch of the selection and of the step on the sixth byte. -/
theorem hdrEndNOpensThePayload : Obligations.HdrEndNOpensThePayload := by
  unfold Obligations.HdrEndNOpensThePayload
  intro s b h0 h1 h2 h3 h4 hl hz
  have hlen : le16 h0 h1 ≠ 0#16 := hz
  have hs : select Config.params s.pfd b = .next (.hdrEndN b) := by
    rw [select_header_end _ _ hl, if_neg hlen]
  refine ⟨hs, exec_of_select hs ?_⟩
  rw [acceptByte_header_end _ _ hl, if_neg hlen, addByte, zext16, withHeader, le16, le16]

end Sys2Proof.Machine
end

section
/-! SUPPORT. Which operation a byte selects in ReadingPayload, by the count of payload bytes held (R57, R58), and the
statements about payload accumulation (`43_payload.md`). -/

namespace Sys2Proof.Machine

/-! ### The selection in ReadingPayload -/

theorem full_readingPayload {d : Pfd} {pb : Memory} (h : d.live = .readingPayload pb) :
    full d = (pb.length + 1 == d.msg.payloadLength.toNat) := by
  rw [full, h]

/-- The byte itself decides nothing: the count after the append, in integers, chooses between the two payload rows. -/
theorem select_payload (P : Config.Params) {d : Pfd} (b : Byte) {pb : Memory} (h : d.live = .readingPayload pb) :
    select P d b = .next (if pb.length + 1 = d.msg.payloadLength.toNat then .payEnd b else .payAcc b) := by
  rw [select_readingPayload P b h, full_readingPayload h]
  simp only [beq_iff_eq]

/-! ### Payload accumulation (R100, R101) -/

/-- Settles O10: a count below the declared length is not equal to it, the second branch of the selection and of the
step. -/
theorem payAccAppendsTheByte : Obligations.PayAccAppendsTheByte := by
  unfold Obligations.PayAccAppendsTheByte
  intro s b pb hl hcount
  have hne : pb.length + 1 ≠ s.pfd.msg.payloadLength.toNat := hcount.ne
  have hs : select Config.params s.pfd b = .next (.payAcc b) := by
    rw [select_payload _ _ hl, if_neg hne]
  refine ⟨hs, exec_of_select hs ?_⟩
  rw [acceptByte_payload _ _ hl, if_neg hne, addByte, zext16, Memory.append]

/-- Settles O11: the count equals the declared length, the first branch of the selection and of the step. -/
theorem payEndMovesTheBuffer : Obligations.PayEndMovesTheBuffer := by
  unfold Obligations.PayEndMovesTheBuffer
  intro s b pb hl hcount
  have hs : select Config.params s.pfd b = .next (.payEnd b) := by
    rw [select_payload _ _ hl, if_pos hcount]
  refine ⟨hs, exec_of_select hs ?_⟩
  rw [acceptByte_payload _ _ hl, if_pos hcount, addByte, zext16, Memory.append]

end Sys2Proof.Machine
end

section
/-! SUPPORT. Which operation a byte selects in ReadingChecksum, by the count of trailer bytes held and the trailer the
byte completes (R57, R58), what each result of a step says of the block it leaves, and the statements about the trailer
and finalization (`44_trailer.md`). -/

namespace Sys2Proof.Machine

/-! ### The selection in ReadingChecksum -/

theorem full_readingChecksum {d : Pfd} {cb : List Byte} (h : d.live = .readingChecksum cb) :
    full d = (cb.length == 1) := by
  rw [full, h]

theorem ckok_readingChecksum (P : Config.Params) {d : Pfd} (b : Byte) {c0 : Byte}
    (h : d.live = .readingChecksum [c0]) : ckok P d b = (le16 c0 b == cksum P d.msg) := by
  rw [ckok, h]

/-- With a count other than 1 the byte does not complete the trailer, and nothing is compared. -/
theorem select_trailer_acc (P : Config.Params) {d : Pfd} (b : Byte) {cb : List Byte}
    (h : d.live = .readingChecksum cb) (hl : cb.length ≠ 1) : select P d b = .next (.ckAcc b) := by
  have hfull : full d = false := by rw [full_readingChecksum h, beq_eq_false_iff_ne]; exact hl
  rw [select_readingChecksum P b h, hfull]
  rfl

/-- The second trailer byte: the whole trailer is compared with `CKSUM(MSG)`, and that chooses the row. -/
theorem select_trailer_end (P : Config.Params) {d : Pfd} (b : Byte) {c0 : Byte}
    (h : d.live = .readingChecksum [c0]) :
    select P d b = .next (if le16 c0 b = cksum P d.msg then .ckOk b else .ckBad b) := by
  have hfull : full d = true := full_readingChecksum h
  rw [select_readingChecksum P b h, hfull, ckok_readingChecksum P b h]
  simp only [if_true, beq_iff_eq]

/-! ### The trailer (R110 to R112) -/

/-- Settles O12: no byte held is not one byte held, so the byte is appended to the empty buffer. -/
theorem ckAccKeepsTheLowByte : Obligations.CkAccKeepsTheLowByte := by
  unfold Obligations.CkAccKeepsTheLowByte
  intro s b hl
  have hne : ([] : List Byte).length ≠ 1 := Nat.zero_ne_one
  have hs : select Config.params s.pfd b = .next (.ckAcc b) := select_trailer_acc _ b hl hne
  refine ⟨hs, exec_of_select hs ?_⟩
  rw [acceptByte_trailer_acc _ _ hl hne, List.nil_append]

/-- Settles O13: the trailer equals `CKSUM(MSG)`, the first branch of the selection and of the step. -/
theorem ckOkDeliversTheMessage : Obligations.CkOkDeliversTheMessage := by
  unfold Obligations.CkOkDeliversTheMessage
  intro s b c0 hl hc
  have htrailer : le16 c0 b = cksum Config.params s.pfd.msg := hc
  have hs : select Config.params s.pfd b = .next (.ckOk b) := by
    rw [select_trailer_end _ _ hl, if_pos htrailer]
  refine ⟨hs, exec_of_select hs ?_⟩
  rw [acceptByte_trailer_end _ _ hl, if_pos htrailer, finalize, initialMessage, withTrailer, le16]

/-- Settles O14: the trailer differs from `CKSUM(MSG)`, the second branch of the selection and of the step. -/
theorem ckBadDeliversTheMessage : Obligations.CkBadDeliversTheMessage := by
  unfold Obligations.CkBadDeliversTheMessage
  intro s b c0 hl hc
  have htrailer : le16 c0 b ≠ cksum Config.params s.pfd.msg := hc
  have hs : select Config.params s.pfd b = .next (.ckBad b) := by
    rw [select_trailer_end _ _ hl, if_neg htrailer]
  refine ⟨hs, exec_of_select hs ?_⟩
  rw [acceptByte_trailer_end _ _ hl, if_neg htrailer, finalize, initialMessage, withTrailer, le16]

/-! ### What each result leaves (R113) -/

/-- `FINALIZE` is `RESET` of the decoder part with the bank filled: nothing of the block before it is left, and `kind`
is only recorded. -/
theorem finalize_eq_initial (k : ResKind) (m : Message) (d : Pfd) :
    finalize k m d = { Pfd.initial with res := some ⟨k, m⟩ } := rfl

/-- The block after a step, by the result the step returns: the eight operations that proceed keep `RES`, the two
misses write at most the phase and `ACC`, and the two that finalize leave the initial block around `RES`. -/
theorem acceptByte_result_cases {P : Config.Params} {d e : Pfd} {b : Byte} {r : Result}
    (h : acceptByte P d b = .next (e, r)) :
    (r = .inProgress ∧ e.res = d.res) ∨
    (r = .error .invalidStartByte ∧ d.live = .awaitingStart1 ∧ e = d) ∨
    (r = .error .invalidStartByte ∧ d.live = .awaitingStart2 ∧ e = { d with live := .awaitingStart1, acc := 0#16 }) ∨
    (∃ m, r = .success m ∧ e = { Pfd.initial with res := some ⟨.success, m⟩ }) ∨
    (∃ m, r = .error (.checksumError m) ∧ e = { Pfd.initial with res := some ⟨.checksumError, m⟩ }) := by
  rcases acceptByte_cases h with ⟨-, -, hr, rfl⟩ | ⟨hl, -, hr, he⟩ | ⟨-, -, hr, rfl⟩ | ⟨hl, -, hr, he⟩ |
    ⟨_, -, -, hr, rfl⟩ | ⟨_, _, _, _, _, -, -, hr, rfl⟩ | ⟨_, _, _, _, _, -, -, hr, rfl⟩ |
    ⟨_, -, -, hr, rfl⟩ | ⟨_, -, -, hr, rfl⟩ | ⟨_, -, -, hr, rfl⟩ | ⟨_, -, -, hr, he⟩ | ⟨_, -, -, hr, he⟩
  · exact .inl ⟨hr, rfl⟩
  · exact .inr (.inl ⟨hr, hl, he⟩)
  · exact .inl ⟨hr, rfl⟩
  · exact .inr (.inr (.inl ⟨hr, hl, he⟩))
  iterate 6 exact .inl ⟨hr, rfl⟩
  · exact .inr (.inr (.inr (.inl ⟨_, hr, he.trans (finalize_eq_initial _ _ d)⟩)))
  · exact .inr (.inr (.inr (.inr ⟨_, hr, he.trans (finalize_eq_initial _ _ d)⟩)))

/-- Settles O40: the five kinds of step, each with the one clause its result selects; a miss in AwaitingStart2 is no
miss in AwaitingStart1. -/
theorem resultsDetermineResAndReset : Obligations.ResultsDetermineResAndReset := by
  unfold Obligations.ResultsDetermineResAndReset
  intro P d e b r h
  rcases acceptByte_result_cases h with ⟨rfl, hres⟩ | ⟨rfl, hl, rfl⟩ | ⟨rfl, hl, rfl⟩ | ⟨m, rfl, rfl⟩ | ⟨m, rfl, rfl⟩
  · exact ⟨nofun, nofun, nofun, fun _ => hres⟩
  · exact ⟨nofun, nofun, fun _ => ⟨hl, rfl, rfl, fun _ => rfl⟩, nofun⟩
  · have hne : d.live ≠ .awaitingStart1 := by rw [hl]; exact nofun
    exact ⟨nofun, nofun, fun _ => ⟨rfl, rfl, rfl, fun hl1 => absurd hl1 hne⟩, nofun⟩
  · exact ⟨by rintro _ ⟨⟩; rfl, nofun, nofun, nofun⟩
  · exact ⟨nofun, by rintro _ ⟨⟩; rfl, nofun, nofun⟩

end Sys2Proof.Machine
end

section
/-! SUPPORT. Where the loop of `FEED` ends, the machine's step on a cycle with `rst = 1`, the `msg_*` ports while a bank
is shown, and the statements about the system operations and ports (`45_system.md`). -/

namespace Sys2Proof.Machine

/-! ### `FEED` (R123) -/

/-- The two ways the loop of `FEED` ends: every byte answers `InProgress`, or one byte is the first that does not and
the bytes after it are not presented. The block is the one those bytes lead to, one step each. -/
theorem feedLoop_ends (P : Config.Params) {d : Pfd} (bs : List Byte) (k : Nat) (hd : d.live.assigned) :
    (∃ e, feedLoop P bs k d = .next (e, .inProgress, k + bs.length) ∧
      acceptBytes P d bs = .next (e, List.replicate bs.length .inProgress)) ∨
    (∃ e r n, r ≠ .inProgress ∧ n < bs.length ∧ feedLoop P bs k d = .next (e, r, k + (n + 1)) ∧
      acceptBytes P d (bs.take (n + 1)) = .next (e, List.replicate n .inProgress ++ [r])) := by
  induction bs generalizing d k with
  | nil => exact .inl ⟨d, rfl, rfl⟩
  | cons b bs ih =>
    obtain ⟨x, q, hx⟩ := acceptByte_answers P b hd
    by_cases hq : q = .inProgress
    · subst hq
      rw [feedLoop_goes_on bs k hx]
      rcases ih (k + 1) (assigned_next hx) with ⟨e, hloop, hbytes⟩ | ⟨e, r, n, hr, hn, hloop, hbytes⟩
      · refine .inl ⟨e, ?_, acceptBytes_cons hx hbytes⟩
        rw [hloop, List.length_cons, Nat.add_assoc, Nat.add_comm 1]
      · refine .inr ⟨e, r, n + 1, hr, Nat.succ_lt_succ hn, ?_, acceptBytes_cons hx hbytes⟩
        rw [hloop, Nat.add_assoc, Nat.add_comm 1]
    · exact .inr ⟨x, q, 0, hq, Nat.succ_pos _, feedLoop_stops bs k hx hq, acceptBytes_cons hx rfl⟩

/-- `FEED` hands over where its loop ends; the stream and the draw are the state's own. -/
theorem exec_feed_of_feedLoop {s : State} {bs : List Byte} {d : Pfd} {r : Result} {n : Nat}
    (h : feedLoop Config.params bs 0 s.pfd = .next (d, r, n)) :
    exec (.feed bs) s = .next { s with
      pfd := d
      result := if n = 0 then s.result else some r
      value := some (.fed r n) } := by
  simp only [exec, execFeed, h]

/-- Settles O21: the two ends of the loop are the two clauses, and a run of bytes gives one `Result` for each. -/
theorem feedStopsAtTheFirstResult : Obligations.FeedStopsAtTheFirstResult := by
  unfold Obligations.FeedStopsAtTheFirstResult
  intro s bs hd
  rcases feedLoop_ends Config.params bs 0 hd with ⟨e, hloop, hbytes⟩ | ⟨e, r, n, hr, hn, hloop, hbytes⟩
  · rw [Nat.zero_add] at hloop
    refine ⟨_, .inProgress, bs.length, _, exec_feed_of_feedLoop hloop, rfl, rfl, rfl, ?_, List.length_replicate,
      .inl ⟨rfl, rfl, fun _ => List.eq_of_mem_replicate⟩⟩
    rw [List.take_length, hbytes]
  · rw [Nat.zero_add] at hloop
    refine ⟨_, r, n + 1, _, exec_feed_of_feedLoop hloop, rfl, rfl, rfl, hbytes, ?_,
      .inr ⟨hr, Nat.le_add_left 1 n, hn, rfl⟩⟩
    rw [List.length_append, List.length_replicate, List.length_singleton]

/-! ### A cycle with `rst = 1` (R122) -/

/-- With `rst = 1` the machine runs `RESET`, whatever `in_valid` and `in_data` are. -/
theorem step_rst {s : State} {v : Bool} {x : Byte} {rest : List Item} (hi : s.input = .cycle ⟨true, v, x⟩ :: rest) :
    step s = exec .reset (consume s) := by
  simp only [step, fetch, hi, fetchCycle, if_true]

/-- Settles O29: the cycle runs `RESET` once its item, byte included, is consumed. -/
theorem resetWinsOverAByte : Obligations.ResetWinsOverAByte := by
  unfold Obligations.ResetWinsOverAByte
  intro s v x rest hi
  rw [step_rst hi, exec_reset, consume, hi, List.tail_cons, Pfd.initial, initialMessage]

/-! ### The ports while a `Result` is reported or a bank is shown (R121, R124) -/

/-- The bank's byte at an index below its `payload_length` (R32). -/
theorem readRes_of_lt {d : Pfd} {r : ResBank} {a : Nat} (hres : d.res = some r)
    (ha : a < r.msg.payloadLength.toNat) : d.readRes a = r.msg.payload[a]? := by
  simp only [Pfd.readRes, hres, if_pos ha, Memory.read?]

section
variable {s : State} (h : s.pfd.live ≠ .powerUp)
include h

theorem resKindPort_of_result (P : Config.Params) {x : Result} (hx : s.result = some x) :
    resKindPort P s = x.code P.codes := by
  rw [resKindPort_eq h, hx, Option.map_some, Option.getD_some]

/-- A `msg_*` port for a field `f` of the bank: the bank's own value, not the free value `x`. -/
theorem shownRes_map_getD {α : Type} {r : ResBank} (hres : s.pfd.res = some r) (f : ResBank → α) (x : α) :
    ((shownRes s).map f).getD x = f r := by
  rw [shownRes_eq h, hres, Option.map_some, Option.getD_some]

theorem msgRdDataPort_of_readable {r : ResBank} {a : U16} {y : Byte} (hres : s.pfd.res = some r)
    (ha : a.toNat < r.msg.payloadLength.toNat) (hy : r.msg.payload[a.toNat]? = some y) :
    msgRdDataPort s a = y := by
  rw [msgRdDataPort_eq h, readRes_of_lt hres ha, hy, Option.getD_some]

end

/-- Settles O43: every port by its lemma once the block has been reset, and R55's table of codes. -/
theorem portsShowResultAndBank : Obligations.PortsShowResultAndBank := by
  unfold Obligations.PortsShowResultAndBank
  intro P s a h
  refine ⟨rfl, resValidPort_eq h, msgValidPort_eq h, fun _ => resKindPort_of_result h P, fun r hres => ?_,
    fun _ => ⟨rfl, rfl, rfl, rfl, rfl, rfl, rfl⟩⟩
  exact ⟨shownRes_map_getD h hres _ _, shownRes_map_getD h hres _ _, shownRes_map_getD h hres _ _,
    shownRes_map_getD h hres _ _, shownRes_map_getD h hres _ _, shownRes_map_getD h hres _ _,
    fun _ => msgRdDataPort_of_readable h hres⟩

end Sys2Proof.Machine
end

section
/-! SUPPORT. What the sender's functions answer, and the statements about them (`46_reference_encoder.md`). -/

namespace Sys2Proof.Machine

/-! ### `SETCRC` (R130) -/

@[simp] theorem valid_setcrc (P : Config.Params) (m : Message) : valid P (setcrc P m) = true :=
  (valid_iff P (setcrc P m)).mpr (cksum_setcrc P m).symm

/-- The second `SETCRC` writes the checksum that stands there, since `CKSUM` does not read the field it writes. -/
@[simp] theorem setcrc_setcrc (P : Config.Params) (m : Message) : setcrc P (setcrc P m) = setcrc P m := by
  rw [setcrc, cksum_setcrc, setcrc]

theorem exec_setcrc (m : Message) (s : State) :
    exec (.setcrc m) s = .next { s with value := some (.message (setcrc Config.params m)) } := rfl

/-- Settles O18: the message answered is `setcrc` of the one given, which is valid and a fixed point of `setcrc`. -/
theorem setcrcMakesTheMessageValid : Obligations.SetcrcMakesTheMessageValid := by
  unfold Obligations.SetcrcMakesTheMessageValid
  intro m s
  refine ⟨cksum Config.params m, exec_cksum m s, exec_setcrc m s, ?_⟩
  rw [← setcrc, exec_valid, exec_setcrc, valid_setcrc, setcrc_setcrc]
  exact ⟨rfl, rfl⟩

/-! ### `SERIALIZE` (R131) -/

theorem complete_iff (m : Message) : m.complete = true ↔ m.payload.length = m.payloadLength.toNat := by
  rw [Message.complete, beq_iff_eq]

/-- Eight bytes stand before the payload and two after it (R50). -/
theorem serialize_length (P : Config.Params) (m : Message) :
    (serialize P m).length = 10 + m.payload.length := by
  simp only [serialize, List.length_append, List.length_cons, List.length_nil]
  omega

/-- The frame of a complete message is `LENGTH(M)` bytes long (R73). -/
theorem serialize_length_of_complete (P : Config.Params) {m : Message}
    (h : m.payload.length = m.payloadLength.toNat) : (serialize P m).length = (frameLength m).toNat := by
  rw [serialize_length, h, frameLength_toNat]

theorem exec_serialize_of_complete {m : Message} (s : State) (h : m.payload.length = m.payloadLength.toNat) :
    exec (.serialize m) s = .next { s with value := some (.bytes (serialize Config.params m)) } :=
  if_pos ((complete_iff m).mpr h)

theorem exec_serialize_of_incomplete {m : Message} (s : State) (h : m.payload.length ≠ m.payloadLength.toNat) :
    exec (.serialize m) s = .refused .incompleteMessage :=
  if_neg (mt (complete_iff m).mp h)

/-- Settles O19: completeness of the message decides between its frame and the refusal. -/
theorem serializeWritesTheFrame : Obligations.SerializeWritesTheFrame := by
  unfold Obligations.SerializeWritesTheFrame
  intro m s
  refine ⟨fun hcomplete => ?_, exec_serialize_of_incomplete s⟩
  have hbytes : serialize Config.params m = [0x42#8, 0x52#8, lo8 m.payloadLength, hi8 m.payloadLength,
      lo8 m.messageId, hi8 m.messageId, m.srcDeviceId, m.dstDeviceId] ++ m.payload ++
        [lo8 m.checksum, hi8 m.checksum] := rfl
  exact ⟨serialize Config.params m, exec_serialize_of_complete s hcomplete, hbytes,
    serialize_length_of_complete _ hcomplete⟩

end Sys2Proof.Machine
end

section
/-! SUPPORT. Which byte raises which result, and the statements about exceptions (`60_exceptions.md`). -/

namespace Sys2Proof.Machine

/-- The byte is not the magic byte awaited (R81, R83). -/
def Misses (P : Config.Params) (d : Pfd) (b : Byte) : Prop :=
  (d.live = .awaitingStart1 ∧ b ≠ P.magic0) ∨ (d.live = .awaitingStart2 ∧ b ≠ P.magic1)

section
variable {P : Config.Params} {d e : Pfd} {b : Byte} {r : Result} (h : acceptByte P d b = .next (e, r))
include h

/-- Every result with the byte that raises it: a miss, or a second trailer byte compared with `CKSUM(MSG)`; every other
byte proceeds. -/
theorem acceptByte_result_cause :
    r = .inProgress ∨
    (r = .error .invalidStartByte ∧ Misses P d b) ∨
    (∃ c0, r = .success (withTrailer d.msg c0 b) ∧ d.live = .readingChecksum [c0] ∧ le16 c0 b = cksum P d.msg) ∨
    (∃ c0, r = .error (.checksumError (withTrailer d.msg c0 b)) ∧ d.live = .readingChecksum [c0] ∧
      le16 c0 b ≠ cksum P d.msg) := by
  rcases acceptByte_cases h with ⟨-, -, hr, -⟩ | ⟨hl, hb, hr, -⟩ | ⟨-, -, hr, -⟩ | ⟨hl, hb, hr, -⟩ |
    ⟨_, -, -, hr, -⟩ | ⟨_, _, _, _, _, -, -, hr, -⟩ | ⟨_, _, _, _, _, -, -, hr, -⟩ |
    ⟨_, -, -, hr, -⟩ | ⟨_, -, -, hr, -⟩ | ⟨_, -, -, hr, -⟩ | ⟨c0, hl, hc, hr, -⟩ | ⟨c0, hl, hc, hr, -⟩
  · exact .inl hr
  · exact .inr (.inl ⟨hr, .inl ⟨hl, hb⟩⟩)
  · exact .inl hr
  · exact .inr (.inl ⟨hr, .inr ⟨hl, hb⟩⟩)
  iterate 6 exact .inl hr
  · exact .inr (.inr (.inl ⟨c0, hr, hl, hc⟩))
  · exact .inr (.inr (.inr ⟨c0, hr, hl, hc⟩))

/-- Nothing raises the reserved kind (R61). -/
theorem acceptByte_ne_incompleteData : r ≠ .error .incompleteData := by
  rcases acceptByte_result_cause h with rfl | ⟨rfl, -⟩ | ⟨_, rfl, -⟩ | ⟨_, rfl, -⟩ <;> exact nofun

theorem acceptByte_invalidStartByte_iff : r = .error .invalidStartByte ↔ Misses P d b := by
  constructor
  · rintro rfl
    rcases acceptByte_result_cause h with hr | ⟨-, hmiss⟩ | ⟨_, hr, -⟩ | ⟨_, hr, -⟩
    · cases hr
    · exact hmiss
    · cases hr
    · cases hr
  · rintro (⟨hl, hb⟩ | ⟨hl, hb⟩)
    · rw [acceptByte_awaitingStart1 P b hl, if_neg hb] at h
      cases h
      rfl
    · rw [acceptByte_awaitingStart2 P b hl, if_neg hb] at h
      cases h
      rfl

theorem acceptByte_checksumError_iff (m : Message) :
    r = .error (.checksumError m) ↔
      ∃ c0, d.live = .readingChecksum [c0] ∧ le16 c0 b ≠ cksum P d.msg ∧ m = withTrailer d.msg c0 b := by
  constructor
  · rintro rfl
    rcases acceptByte_result_cause h with hr | ⟨hr, -⟩ | ⟨_, hr, -⟩ | ⟨c0, hr, hl, hc⟩
    · cases hr
    · cases hr
    · cases hr
    · cases hr
      exact ⟨c0, hl, hc, rfl⟩
  · rintro ⟨c0, hl, hc, rfl⟩
    rw [acceptByte_trailer_end P b hl, if_neg hc] at h
    cases h
    rfl

theorem acceptByte_success_iff (m : Message) :
    r = .success m ↔
      ∃ c0, d.live = .readingChecksum [c0] ∧ le16 c0 b = cksum P d.msg ∧ m = withTrailer d.msg c0 b := by
  constructor
  · rintro rfl
    rcases acceptByte_result_cause h with hr | ⟨hr, -⟩ | ⟨c0, hr, hl, hc⟩ | ⟨_, hr, -⟩
    · cases hr
    · cases hr
    · cases hr
      exact ⟨c0, hl, hc, rfl⟩
    · cases hr
  · rintro ⟨c0, hl, hc, rfl⟩
    rw [acceptByte_trailer_end P b hl, if_pos hc] at h
    cases h
    rfl

end

/-- Settles O38: in a phase of R11 the step answers, and its result is one of the four raised. -/
theorem outcomesAreTheFour : Obligations.OutcomesAreTheFour := by
  unfold Obligations.OutcomesAreTheFour
  intro P d b hd
  obtain ⟨e, r, h⟩ := acceptByte_answers P b hd
  refine ⟨e, r, h, ?_, acceptByte_ne_incompleteData h⟩
  rcases acceptByte_result_cause h with hr | ⟨hr, -⟩ | ⟨_, hr, -⟩ | ⟨_, hr, -⟩
  · exact .inl hr
  · exact .inr (.inr (.inl hr))
  · exact .inr (.inl ⟨_, hr⟩)
  · exact .inr (.inr (.inr ⟨_, hr⟩))

/-- Settles O39: each result by the byte that raises it; the block left is the one the result determines (R113). -/
theorem errorsAreRaisedExactlyWhen : Obligations.ErrorsAreRaisedExactlyWhen := by
  unfold Obligations.ErrorsAreRaisedExactlyWhen
  intro P d e b r h
  obtain ⟨-, hbad, hmiss, -⟩ := resultsDetermineResAndReset P d e b r h
  refine ⟨acceptByte_invalidStartByte_iff h, fun hr => ?_, acceptByte_checksumError_iff h, fun m hr => ?_,
    acceptByte_success_iff h⟩
  · obtain ⟨hlive, hres, -⟩ := hmiss hr
    exact ⟨congrArg _ hr, hlive, hres⟩
  · rw [hbad m hr, hr]
    exact ⟨rfl, rfl, rfl⟩

end Sys2Proof.Machine
end

section
/-! SUPPORT. The word of each operation decodes to it, the word a block forms is the one its operation has, and the
statements about the dispatch table (`30_encoding.md` section 3). -/

namespace Sys2Proof.Machine

/-! ### Words and their two bytes -/

/-- The word of a well-formed operation selects it: a `MISS` carries a byte the row before it does not take (R58). -/
theorem decodeWord_encodeWord {P : Config.Params} {i : Instr} {w : DispatchWord} (hwf : i.wf P = true)
    (hw : encodeWord P i = some w) : decodeWord P w = .ok i := by
  cases i with
  | s1Hit => cases hw; rw [decode_awaitingStart1, if_pos rfl]
  | s1Miss b => cases hw; rw [decode_awaitingStart1, if_neg (bne_iff_ne.mp hwf)]
  | s2Hit => cases hw; rw [decode_awaitingStart2, if_pos rfl]
  | s2Miss b => cases hw; rw [decode_awaitingStart2, if_neg (bne_iff_ne.mp hwf)]
  | hdrAcc b | hdrEnd0 b | hdrEndN b => cases hw; exact decode_readingHeader P _ _ _ b
  | payAcc b | payEnd b => cases hw; exact decode_readingPayload P _ _ _ b
  | ckAcc b | ckOk b | ckBad b => cases hw; exact decode_readingChecksum P _ _ _ b
  | reset | cksum | valid | length | setcrc | serialize => cases hw
  | step | feed | frame | framex | noise => cases hw

/-- The operations of R58 have a word (R66). -/
theorem encodeWord_of_dispatched (P : Config.Params) {i : Instr} (h : i.dispatched = true) :
    ∃ w, encodeWord P i = some w := by
  cases i with
  | s1Hit | s1Miss | s2Hit | s2Miss => exact ⟨_, rfl⟩
  | hdrAcc | hdrEnd0 | hdrEndN | payAcc | payEnd => exact ⟨_, rfl⟩
  | ckAcc | ckOk | ckBad => exact ⟨_, rfl⟩
  | reset | cksum | valid | length | setcrc | serialize => cases h
  | step | feed | frame | framex | noise => cases h

/-- The two bytes `encode` lays a word out in give the word back to `decode` (log entry 12). -/
theorem decode_wordBytes (P : Config.Params) (w : DispatchWord) (rest : List Byte) :
    decode P (w.extractLsb' 0 8 :: (0b00#2 ++ w.extractLsb' 8 6) :: rest) =
      (decodeWord P w).map fun i => (i, rest) := by
  have htop : (0b00#2 ++ w.extractLsb' 8 6 : Byte).extractLsb' 6 2 = 0#2 := extract_high _ _
  have hhigh : (0b00#2 ++ w.extractLsb' 8 6 : Byte).extractLsb' 0 6 = w.extractLsb' 8 6 := extract_low _ _
  simp only [decode, htop, hhigh, word_split, if_true]
  cases decodeWord P w <;> rfl

/-- Settles O35: the operation's word is laid out in two bytes, and that word selects the operation. -/
theorem decodeOfEncode : Obligations.DecodeOfEncode := by
  unfold Obligations.DecodeOfEncode
  intro P i hwf hdispatched
  obtain ⟨w, hw⟩ := encodeWord_of_dispatched P hdispatched
  refine ⟨[w.extractLsb' 0 8, 0b00#2 ++ w.extractLsb' 8 6], by rw [encode, hw], rfl, fun rest => ?_⟩
  have hdecode := decode_wordBytes P w rest
  rw [decodeWord_encodeWord hwf hw] at hdecode
  exact hdecode

/-! ### The word a block forms -/

/-- `LZ` says that five header bytes are in, which is `FULL` (R57). -/
theorem full_of_lz {d : Pfd} (h : lz d = true) : full d = true := by
  unfold lz at h
  split at h
  · next hl => exact full_readingHeader hl
  · cases h

/-- `CKOK` says that one trailer byte is in, which is `FULL` (R57). -/
theorem full_of_ckok {P : Config.Params} {d : Pfd} {b : Byte} (h : ckok P d b = true) : full d = true := by
  unfold ckok at h
  split at h
  · next hl => exact full_readingChecksum hl
  · cases h

/-- The operation a byte selects has the very word the block forms: where a row leaves a bit untested, the block that
selects the row has 0 there (R57). -/
theorem encodeWord_of_select {P : Config.Params} {d : Pfd} {b : Byte} {i : Instr} (h : select P d b = .next i) :
    encodeWord P i = dispatchWord P d b := by
  cases hl : d.live with
  | awaitingStart1 =>
    have hword : dispatchWord P d b = some (mkWord 0b000#3 false false false b) := by
      simp [dispatchWord, hl, Live.code, full, lz, ckok]
    rw [select_awaitingStart1 P b hl] at h
    cases h
    by_cases hb : b = P.magic0
    · rw [if_pos hb, hword, hb, encodeWord]
    · rw [if_neg hb, hword, encodeWord]
  | awaitingStart2 =>
    have hword : dispatchWord P d b = some (mkWord 0b001#3 false false false b) := by
      simp [dispatchWord, hl, Live.code, full, lz, ckok]
    rw [select_awaitingStart2 P b hl] at h
    cases h
    by_cases hb : b = P.magic1
    · rw [if_pos hb, hword, hb, encodeWord]
    · rw [if_neg hb, hword, encodeWord]
  | readingHeader hb =>
    have hword : dispatchWord P d b = some (mkWord 0b010#3 (full d) (lz d) false b) := by
      simp [dispatchWord, hl, Live.code, ckok]
    rw [select_readingHeader P b hl] at h
    cases h
    cases hz : lz d with
    | true => simp [full_of_lz hz, hz, encodeWord, hword]
    | false => cases hf : full d <;> simp [hf, hz, encodeWord, hword]
  | readingPayload pb =>
    have hword : dispatchWord P d b = some (mkWord 0b011#3 (full d) false false b) := by
      simp [dispatchWord, hl, Live.code, lz, ckok]
    rw [select_readingPayload P b hl] at h
    cases h
    cases hf : full d <;> simp [hf, encodeWord, hword]
  | readingChecksum cb =>
    have hword : dispatchWord P d b = some (mkWord 0b100#3 (full d) false (ckok P d b) b) := by
      simp [dispatchWord, hl, Live.code, lz]
    rw [select_readingChecksum P b hl] at h
    cases h
    cases hk : ckok P d b with
    | true => simp [full_of_ckok hk, hk, encodeWord, hword]
    | false => cases hf : full d <;> simp [hf, hk, encodeWord, hword]
  | unassigned c => rw [select_unassigned P b hl] at h; cases h
  | powerUp => rw [select_powerUp P b hl] at h; cases h

/-- A formed word that decodes is a selection (R58). -/
theorem select_of_dispatchWord {P : Config.Params} {d : Pfd} {b : Byte} {w : DispatchWord} {i : Instr}
    (hw : dispatchWord P d b = some w) (hi : decodeWord P w = .ok i) : select P d b = .next i := by
  simp only [select, hw, hi]

/-- Settles O36: the word and the operation are a selection of that byte. -/
theorem formedWordsAreCanonical : Obligations.FormedWordsAreCanonical := by
  unfold Obligations.FormedWordsAreCanonical
  intro P d b w i hw hi
  have hs : select P d b = .next i := select_of_dispatchWord hw hi
  obtain ⟨-, -, hbyte⟩ := select_wf hs
  exact ⟨(encodeWord_of_select hs).trans hw, hbyte⟩

/-! ### All words -/

/-- Every word is made of its phase field, three flags and a byte (R57). -/
theorem exists_mkWord_eq (w : DispatchWord) : ∃ f l k b, w = mkWord (w.extractLsb' 11 3) f l k b := by
  have hhigh : ∀ h : BitVec 6, ∃ f l k, h = wordHigh (h.extractLsb' 3 3) f l k := by decide
  obtain ⟨f, l, k, h⟩ := hhigh (w.extractLsb' 8 6)
  have hphase : (w.extractLsb' 8 6).extractLsb' 3 3 = w.extractLsb' 11 3 := by
    rw [← extract_above (w.extractLsb' 8 6) (w.extractLsb' 0 8) 3 3, word_split]
  refine ⟨f, l, k, w.extractLsb' 0 8, ?_⟩
  rw [mkWord_eq, ← hphase, ← h, word_split]

/-- A word with one of the five phase codes of R11 meets a row, whatever its other bits. -/
theorem decodeWord_of_code_le (P : Config.Params) {c : Code} (h : c.toNat ≤ 4) (f l k : Bool) (b : Byte) :
    ∃ i, decodeWord P (mkWord c f l k b) = .ok i := by
  have hc : c = 0b000#3 ∨ c = 0b001#3 ∨ c = 0b010#3 ∨ c = 0b011#3 ∨ c = 0b100#3 := by revert c; decide
  rcases hc with rfl | rfl | rfl | rfl | rfl
  · rw [decode_awaitingStart1]; split <;> exact ⟨_, rfl⟩
  · rw [decode_awaitingStart2]; split <;> exact ⟨_, rfl⟩
  · exact ⟨_, decode_readingHeader P f l k b⟩
  · exact ⟨_, decode_readingPayload P f l k b⟩
  · exact ⟨_, decode_readingChecksum P f l k b⟩

/-- The codes above 4 are the three that R11 leaves unassigned. -/
theorem exists_unassigned_code {c : Code} (h : ¬ c.toNat ≤ 4) : ∃ u : UnassignedCode, u.code = c := by
  have hc : c = 0b101#3 ∨ c = 0b110#3 ∨ c = 0b111#3 := by revert c; decide
  rcases hc with rfl | rfl | rfl
  · exact ⟨.c101, rfl⟩
  · exact ⟨.c110, rfl⟩
  · exact ⟨.c111, rfl⟩

/-- Settles O33: a word with an assigned code meets a row, and one with an unassigned code meets none. -/
theorem assignedPhasesDecode : Obligations.AssignedPhasesDecode := by
  unfold Obligations.AssignedPhasesDecode
  intro P w
  obtain ⟨f, l, k, b, hw⟩ := exists_mkWord_eq w
  generalize w.extractLsb' 11 3 = c at hw ⊢
  subst hw
  refine ⟨fun ⟨i, hi⟩ => ?_, fun hc => decodeWord_of_code_le P hc f l k b⟩
  by_contra hc
  obtain ⟨u, rfl⟩ := exists_unassigned_code hc
  rw [decode_unassigned] at hi
  cases hi

/-- Settles O32: the decoder run on each word. -/
theorem tableWordsDecode : Obligations.TableWordsDecode := by
  unfold Obligations.TableWordsDecode
  decide

/-! ### Overlapping and disjoint rows (R59) -/

/-- Two rows that want different values of the bits both test take no word in common. -/
theorem not_both_take {q r : Row} (h : q.pattern &&& r.mask ≠ r.pattern &&& q.mask) (w : DispatchWord) :
    ¬ (q.takes w = true ∧ r.takes w = true) := by
  rintro ⟨hq, hr⟩
  rw [Row.takes, beq_iff_eq] at hq hr
  refine h ?_
  rw [← hq, ← hr, BitVec.and_assoc, BitVec.and_assoc, BitVec.and_comm q.mask]

/-- The patterns and masks of rows 5 to 12 do not depend on the magic bytes, and differ pairwise where both test. -/
theorem rowsFiveToTwelve_differ (P : Config.Params) :
    ((rows P).drop 4).Pairwise fun q r => q.pattern &&& r.mask ≠ r.pattern &&& q.mask := by
  have hclosed : (((rows P).drop 4).map fun r => (r.pattern, r.mask)).Pairwise
      fun q r => q.1 &&& r.2 ≠ r.1 &&& q.2 := by
    simp only [rows, List.drop_succ_cons, List.drop_zero, List.map_cons, List.map_nil]
    decide
  exact List.pairwise_map.mp hclosed

/-- A row that tests the phase, and of the byte the bits of `u`, takes a word with that phase and those bits. -/
theorem takes_append (op : Byte → Instr) {h : BitVec 6} {b u v : Byte} (hphase : h &&& 0b111000#6 = h)
    (hbyte : b &&& u = v) : (⟨h ++ v, 0b111000#6 ++ u, op⟩ : Row).takes (h ++ b) = true := by
  rw [Row.takes, beq_iff_eq]
  exact (and_eq_split h 0b111000#6 h b u v).mpr ⟨hphase, hbyte⟩

/-- Settles O34: the rows 5 to 12 differ in a bit both test; a `MISS` row tests only the phase, which the word of the
`HIT` row before it has too. -/
theorem rowsFiveToTwelveAreDisjoint : Obligations.RowsFiveToTwelveAreDisjoint := by
  unfold Obligations.RowsFiveToTwelveAreDisjoint
  intro P
  refine ⟨(rowsFiveToTwelve_differ P).imp not_both_take,
    ⟨0b000000#6 ++ P.magic0, _, _, rfl, rfl, ?_, ?_⟩, ⟨0b001000#6 ++ P.magic1, _, _, rfl, rfl, ?_, ?_⟩⟩
  · exact takes_append _ rfl BitVec.and_allOnes
  · exact takes_append _ rfl BitVec.and_zero
  · exact takes_append _ rfl BitVec.and_allOnes
  · exact takes_append _ rfl BitVec.and_zero

end Sys2Proof.Machine
end

section
/-! SUPPORT. What each operation of the table does where its byte selects it, its refusal elsewhere, the agreement with
the one listing of the step, and the frames of the twelve operations (`45_system.md`, `20_memory.md` section 1). -/

namespace Sys2Proof.Machine

/-! ### Where an operation runs (R58) -/

/-- Only the five phases of R11 select an operation (R59). -/
theorem assigned_of_select {P : Config.Params} {d : Pfd} {b : Byte} {i : Instr} (h : select P d b = .next i) :
    d.live.assigned := by
  cases hl : d.live with
  | awaitingStart1 | awaitingStart2 | readingHeader | readingPayload | readingChecksum => trivial
  | unassigned c => rw [select_unassigned P b hl] at h; cases h
  | powerUp => rw [select_powerUp P b hl] at h; cases h

/-- Settles O20: the selected operation is the one the step on that byte performs. -/
theorem stepPerformsTheSelectedOperation : Obligations.StepPerformsTheSelectedOperation := by
  unfold Obligations.StepPerformsTheSelectedOperation
  intro s b hd
  obtain ⟨i, hs⟩ : ∃ i, select Config.params s.pfd b = .next i := select_answers b hd
  obtain ⟨e, r, ha⟩ := acceptByte_answers Config.params b hd
  obtain ⟨hwf, hdispatched, -⟩ := select_wf hs
  refine ⟨i, _, hs, hdispatched, hwf, exec_of_select hs ha, ?_⟩
  simp only [exec, execStep, ha, report_of_next]

/-- A byte's operation is one of the twelve. -/
theorem dispatched_of_acceptedByte {P : Config.Params} {i : Instr} {b : Byte} (h : acceptedByte P i = some b) :
    i.dispatched = true := by
  cases i with
  | s1Hit | s1Miss | s2Hit | s2Miss | hdrAcc | hdrEnd0 | hdrEndN => rfl
  | payAcc | payEnd | ckAcc | ckOk | ckBad => rfl
  | reset | cksum | valid | length | setcrc | serialize => cases h
  | step | feed | frame | framex | noise => cases h

/-- A block operation that does not answer is not selected (log entry 9). -/
theorem perform_next_or_notSelected (P : Config.Params) {i : Instr} (d : Pfd) (h : i.dispatched = true) :
    (∃ e r, perform P i d = .next (e, r)) ∨ perform P i d = .refused .notSelected := by
  cases i with
  | s1Hit | s2Hit =>
    simp only [perform, opS1Hit, opS2Hit]
    split
    · exact .inl ⟨_, _, rfl⟩
    · exact .inr rfl
  | s1Miss | s2Miss | hdrAcc | hdrEndN | payAcc | ckAcc | ckBad =>
    simp only [perform, opS1Miss, opS2Miss, opHdrAcc, opHdrEndN, opPayAcc, opCkAcc, opCkBad]
    split
    · split
      · exact .inr rfl
      · exact .inl ⟨_, _, rfl⟩
    · exact .inr rfl
  | hdrEnd0 | payEnd | ckOk =>
    simp only [perform, opHdrEnd0, opPayEnd, opCkOk]
    split
    · split
      · exact .inl ⟨_, _, rfl⟩
      · exact .inr rfl
    · exact .inr rfl
  | reset | cksum | valid | length | setcrc | serialize => cases h
  | step | feed | frame | framex | noise => cases h

/-- Settles O37: the selected operation is the step on its byte, which answers; an operation that answers is selected by
its byte, and any other is refused. -/
theorem operationsRunExactlyWhereSelected : Obligations.OperationsRunExactlyWhereSelected := by
  unfold Obligations.OperationsRunExactlyWhereSelected
  intro s i b hb
  have hdispatched := dispatched_of_acceptedByte hb
  constructor
  · intro hs
    obtain ⟨e, r, ha⟩ := acceptByte_answers Config.params b (assigned_of_select hs)
    exact ⟨_, exec_of_select hs ha⟩
  · intro hs
    rw [exec_perform hdispatched]
    rcases perform_next_or_notSelected Config.params s.pfd hdispatched with ⟨e, r, hp⟩ | hp
    · obtain ⟨b', hb', hs'⟩ := perform_next hp
      rw [hb] at hb'
      cases hb'
      exact absurd hs' hs
    · rw [hp, report_of_refused]

/-! ### What an operation does -/

/-- What each operation of R58 needs of the block and what it leaves (R80 to R83, R90 to R92, R100, R101, R110 to
R113). -/
inductive Performs (P : Config.Params) (d : Pfd) : Instr → Pfd → Result → Prop
  | s1Hit (hl : d.live = .awaitingStart1) :
    Performs P d .s1Hit { d with live := .awaitingStart2, acc := zext16 P.magic0 } .inProgress
  | s1Miss {b : Byte} (hl : d.live = .awaitingStart1) : Performs P d (.s1Miss b) d (.error .invalidStartByte)
  | s2Hit (hl : d.live = .awaitingStart2) :
    Performs P d .s2Hit { d with live := .readingHeader [], acc := addByte d.acc P.magic1 } .inProgress
  | s2Miss {b : Byte} (hl : d.live = .awaitingStart2) :
    Performs P d (.s2Miss b) { d with live := .awaitingStart1, acc := 0#16 } (.error .invalidStartByte)
  | hdrAcc {b : Byte} {hb : List Byte} (hl : d.live = .readingHeader hb) :
    Performs P d (.hdrAcc b) { d with live := .readingHeader (hb ++ [b]), acc := addByte d.acc b } .inProgress
  | hdrEnd0 {b h0 h1 h2 h3 h4 : Byte} (hl : d.live = .readingHeader [h0, h1, h2, h3, h4]) :
    Performs P d (.hdrEnd0 b)
      { d with
        live := .readingChecksum []
        msg := { withHeader d.msg h0 h1 h2 h3 h4 b with payload := [] }
        acc := addByte d.acc b } .inProgress
  | hdrEndN {b h0 h1 h2 h3 h4 : Byte} (hl : d.live = .readingHeader [h0, h1, h2, h3, h4]) :
    Performs P d (.hdrEndN b)
      { d with
        live := .readingPayload []
        msg := withHeader d.msg h0 h1 h2 h3 h4 b
        acc := addByte d.acc b } .inProgress
  | payAcc {b : Byte} {pb : Memory} (hl : d.live = .readingPayload pb) :
    Performs P d (.payAcc b) { d with live := .readingPayload (Memory.append pb b), acc := addByte d.acc b } .inProgress
  | payEnd {b : Byte} {pb : Memory} (hl : d.live = .readingPayload pb) :
    Performs P d (.payEnd b)
      { d with
        live := .readingChecksum []
        msg := { d.msg with payload := Memory.append pb b }
        acc := addByte d.acc b } .inProgress
  | ckAcc {b : Byte} {cb : List Byte} (hl : d.live = .readingChecksum cb) :
    Performs P d (.ckAcc b) { d with live := .readingChecksum (cb ++ [b]) } .inProgress
  | ckOk {b c0 : Byte} (hl : d.live = .readingChecksum [c0]) :
    Performs P d (.ckOk b) (finalize .success (withTrailer d.msg c0 b) d) (.success (withTrailer d.msg c0 b))
  | ckBad {b c0 : Byte} (hl : d.live = .readingChecksum [c0]) :
    Performs P d (.ckBad b) (finalize .checksumError (withTrailer d.msg c0 b) d)
      (.error (.checksumError (withTrailer d.msg c0 b)))

/-- An operation that answers does what its rule says: it is the step on its byte, in the one case that selects it. -/
theorem performs_of_perform {P : Config.Params} {i : Instr} {d e : Pfd} {r : Result}
    (h : perform P i d = .next (e, r)) : Performs P d i e r := by
  obtain ⟨b, -, hs, ha⟩ := acceptByte_of_perform h
  rcases acceptByte_cases ha with ⟨hl, hb, rfl, rfl⟩ | ⟨hl, hb, rfl, rfl⟩ | ⟨hl, hb, rfl, rfl⟩ | ⟨hl, hb, rfl, rfl⟩ |
    ⟨_, hl, hc, rfl, rfl⟩ | ⟨_, _, _, _, _, hl, hz, rfl, rfl⟩ | ⟨_, _, _, _, _, hl, hz, rfl, rfl⟩ |
    ⟨_, hl, hc, rfl, rfl⟩ | ⟨_, hl, hc, rfl, rfl⟩ | ⟨_, hl, hc, rfl, rfl⟩ |
    ⟨_, hl, hc, rfl, rfl⟩ | ⟨_, hl, hc, rfl, rfl⟩
  · rw [select_awaitingStart1 P b hl, if_pos hb] at hs; cases hs; exact .s1Hit hl
  · rw [select_awaitingStart1 P b hl, if_neg hb] at hs; cases hs; exact .s1Miss hl
  · rw [select_awaitingStart2 P b hl, if_pos hb] at hs; cases hs; exact .s2Hit hl
  · rw [select_awaitingStart2 P b hl, if_neg hb] at hs; cases hs; exact .s2Miss hl
  · rw [select_header_acc P b hl hc] at hs; cases hs; exact .hdrAcc hl
  · rw [select_header_end P b hl, if_pos hz] at hs; cases hs; exact .hdrEnd0 hl
  · rw [select_header_end P b hl, if_neg hz] at hs; cases hs; exact .hdrEndN hl
  · rw [select_payload P b hl, if_neg hc] at hs; cases hs; exact .payAcc hl
  · rw [select_payload P b hl, if_pos hc] at hs; cases hs; exact .payEnd hl
  · rw [select_trailer_acc P b hl hc] at hs; cases hs; exact .ckAcc hl
  · rw [select_trailer_end P b hl, if_pos hc] at hs; cases hs; exact .ckOk hl
  · rw [select_trailer_end P b hl, if_neg hc] at hs; cases hs; exact .ckBad hl

/-- An operation of the twelve that answers does what its rule says to the block, and of the machine's other fields
writes the result port only. -/
theorem performs_of_exec {s t : State} {i : Instr} (hi : i.dispatched = true) (h : exec i s = .next t) :
    ∃ e r, Performs Config.params s.pfd i e r ∧ t = { s with pfd := e, result := some r } := by
  rw [exec_perform hi] at h
  obtain ⟨e, r, hp, rfl⟩ := report_next h
  exact ⟨e, r, performs_of_perform hp, rfl⟩

/-! ### Frames -/

/-- What the ten operations that do not finalize keep of the block: `RES` and the checksum field always, the rest of
`MSG` where neither the header nor the payload is complete, `ACC` in the two that add no byte (R14, R17, R18). -/
theorem performs_frame {P : Config.Params} {d e : Pfd} {i : Instr} {r : Result} {b : Byte}
    (hi : i ∈ [Instr.s1Hit, .s1Miss b, .s2Hit, .s2Miss b, .hdrAcc b, .hdrEnd0 b, .hdrEndN b, .payAcc b, .payEnd b,
      .ckAcc b])
    (h : Performs P d i e r) :
    e.res = d.res ∧ e.msg.checksum = d.msg.checksum ∧
      (i ∉ [Instr.hdrEnd0 b, .hdrEndN b, .payEnd b] → e.msg = d.msg) ∧
      (i ∈ [Instr.s1Miss b, .ckAcc b] → e.acc = d.acc) := by
  cases h with
  | s1Miss | ckAcc => exact ⟨rfl, rfl, fun _ => rfl, fun _ => rfl⟩
  | s1Hit | s2Hit | s2Miss | hdrAcc | payAcc => exact ⟨rfl, rfl, fun _ => rfl, by simp⟩
  | hdrEnd0 | hdrEndN | payEnd => exact ⟨rfl, rfl, fun hn => absurd (by simpa using hi) hn, by simp⟩
  | ckOk | ckBad => simp at hi

/-- Settles O23: the block's part is `performs_frame`, and a report writes nothing else but the result port. -/
theorem accumulatingOperationsLeaveResAlone : Obligations.AccumulatingOperationsLeaveResAlone := by
  unfold Obligations.AccumulatingOperationsLeaveResAlone
  intro s t b i hi h
  have hdispatched : i.dispatched = true := by
    simp only [List.mem_cons, List.not_mem_nil, or_false] at hi
    rcases hi with rfl | rfl | rfl | rfl | rfl | rfl | rfl | rfl | rfl | rfl <;> rfl
  obtain ⟨e, r, hp, rfl⟩ := performs_of_exec hdispatched h
  obtain ⟨hres, hchecksum, hmsg, hacc⟩ := performs_frame hi hp
  exact ⟨hres, readRes_congr hres, rfl, rfl, rfl, hchecksum, hmsg, hacc⟩

/-- After `FINALIZE` the readable bytes are those of the frame's own payload (R33). -/
theorem readRes_finalize (k : ResKind) (d : Pfd) (c0 c1 : Byte) {a : Nat} (ha : a < d.msg.payloadLength.toNat) :
    (finalize k (withTrailer d.msg c0 c1) d).readRes a = d.msg.payload[a]? :=
  readRes_of_lt (finalize_res k _ d) ha

/-- Settles O24: either operation moves the frame's own message, with its length and payload, into `RES`. -/
theorem finalizingOperationsWriteOnlyTheBlock : Obligations.FinalizingOperationsWriteOnlyTheBlock := by
  unfold Obligations.FinalizingOperationsWriteOnlyTheBlock
  intro s t b i hi h
  simp only [List.mem_cons, List.not_mem_nil, or_false] at hi
  rcases hi with rfl | rfl
  · obtain ⟨e, r, hp, rfl⟩ := performs_of_exec rfl h
    cases hp
    exact ⟨rfl, rfl, rfl, fun _ => readRes_finalize _ s.pfd _ b⟩
  · obtain ⟨e, r, hp, rfl⟩ := performs_of_exec rfl h
    cases hp
    exact ⟨rfl, rfl, rfl, fun _ => readRes_finalize _ s.pfd _ b⟩

/-- Settles O26: the one write is the append at index `PCNT` (R31), and `RES` is as before. -/
theorem payAccWritesOneIndex : Obligations.PayAccWritesOneIndex := by
  unfold Obligations.PayAccWritesOneIndex
  intro s t b pb hl h
  obtain ⟨e, r, hp, rfl⟩ := performs_of_exec rfl h
  obtain ⟨⟩ := hp
  next pb' hl' =>
    obtain rfl : pb = pb' := by simpa [hl] using hl'
    exact ⟨Memory.append pb b, rfl, append_length pb b, read_append_same pb b, fun a => read_append_other pb b a,
      readRes_congr rfl⟩

/-! ### The one listing (R126) -/

/-- The listing's header branch while the byte does not complete the header. -/
theorem stepListing_header_acc (P : Config.Params) {d : Pfd} (b : Byte) {hb : List Byte}
    (h : d.live = .readingHeader hb) (hl : hb.length ≠ 5) :
    stepListing P d b =
      .next ({ d with live := .readingHeader (hb ++ [b]), acc := addByte d.acc b }, .inProgress) := by
  rw [stepListing, h]
  dsimp only
  split
  · next heq => exact absurd (by simpa using congrArg List.length heq) hl
  · rfl

/-- The listing's trailer branch on the second trailer byte: `ok` is the comparison of the trailer with `CKSUM(MSG)`. -/
theorem stepListing_trailer_end (P : Config.Params) {d : Pfd} (b : Byte) {c0 : Byte}
    (h : d.live = .readingChecksum [c0]) :
    stepListing P d b =
      .next ({ Pfd.initial with
          res := some ⟨if decide (le16 c0 b = cksum P d.msg) then .success else .checksumError,
            withTrailer d.msg c0 b⟩ },
        if decide (le16 c0 b = cksum P d.msg) then .success (withTrailer d.msg c0 b)
        else .error (.checksumError (withTrailer d.msg c0 b))) := by
  rw [stepListing, h]
  rfl

/-- Settles O51: phase by phase, the step's lemma and the listing's branch are the same choice. -/
theorem dispatchRefinesTheListing : Obligations.DispatchRefinesTheListing := by
  unfold Obligations.DispatchRefinesTheListing
  intro P d b hcb
  cases hl : d.live with
  | awaitingStart1 => rw [acceptByte_awaitingStart1 P b hl, stepListing, hl]
  | awaitingStart2 => rw [acceptByte_awaitingStart2 P b hl, stepListing, hl]; rfl
  | readingHeader hb =>
    by_cases h5 : hb.length = 5
    · match hb, h5 with
      | [h0, h1, h2, h3, h4], _ => rw [acceptByte_header_end P b hl, stepListing, hl]; rfl
    · rw [acceptByte_header_acc P b hl h5, stepListing_header_acc P b hl h5]
  | readingPayload pb =>
    rw [acceptByte_payload P b hl, stepListing, hl]
    simp only [List.length_append, List.length_singleton]
    rfl
  | readingChecksum cb =>
    match cb, hcb cb hl with
    | [], _ => rw [acceptByte_trailer_acc P b hl Nat.zero_ne_one, stepListing, hl]; rfl
    | [c0], _ =>
      rw [acceptByte_trailer_end P b hl, stepListing_trailer_end P b hl]
      by_cases hc : le16 c0 b = cksum P d.msg
      · simp only [hc, if_true, finalize_eq_initial, decide_true]
      · simp only [hc, if_false, finalize_eq_initial, decide_false, Bool.false_eq_true]
  | unassigned c => rw [acceptByte_unassigned P b hl, stepListing, hl]
  | powerUp => rw [acceptByte_powerUp P b hl, stepListing, hl]

end Sys2Proof.Machine
end

section
/-! SUPPORT. Bytes in a row: the position, how long `RES` stands, start detection on repeated bytes, the header and the
payload taken whole, and two decoders side by side (`10_state.md` sections 2 and 5, `41_sync.md`,
`70_reset_and_hazards.md` section 2). -/

namespace Sys2Proof.Machine

/-! ### Until the next finalizing step (R33, R170) -/

/-- A byte whose result does not finalize a frame leaves `RES`. -/
theorem acceptByte_res {P : Config.Params} {d e : Pfd} {b : Byte} {r : Result} (h : acceptByte P d b = .next (e, r))
    (hr : ¬ r.finalizes) : e.res = d.res := by
  rcases acceptByte_result_cases h with ⟨-, hres⟩ | ⟨-, -, rfl⟩ | ⟨-, -, rfl⟩ | ⟨m, rfl, -⟩ | ⟨m, rfl, -⟩
  · exact hres
  · rfl
  · rfl
  · exact absurd trivial hr
  · exact absurd trivial hr

theorem acceptBytes_res {P : Config.Params} {d e : Pfd} {bs : List Byte} {rs : List Result}
    (h : acceptBytes P d bs = .next (e, rs)) (hrs : ∀ r ∈ rs, ¬ r.finalizes) : e.res = d.res := by
  induction bs generalizing d rs with
  | nil => cases h; rfl
  | cons b bs ih =>
    obtain ⟨x, r, qs, hbyte, hbytes, rfl⟩ := acceptBytes_cons_next h
    obtain ⟨hr, hqs⟩ := List.forall_mem_cons.mp hrs
    exact (ih hbytes hqs).trans (acceptByte_res hbyte hr)

/-- Settles O41: by induction on the bytes, none of which writes `RES`. -/
theorem resStandsUntilTheNextFinalizingStep : Obligations.ResStandsUntilTheNextFinalizingStep := by
  unfold Obligations.ResStandsUntilTheNextFinalizingStep
  intro P bs d e rs h hrs
  have hres := acceptBytes_res h hrs
  exact ⟨hres, readRes_congr hres⟩

/-! ### The position (R12) -/

/-- A byte that answers moves the position on by one with `InProgress`, or back to 0 with another result: where a field
is complete, the position of its last byte is followed by that of the next field's first byte. -/
theorem acceptByte_position {P : Config.Params} {d e : Pfd} {b : Byte} {r : Result}
    (h : acceptByte P d b = .next (e, r)) :
    ∃ k, d.position = some k ∧
      ((r = .inProgress ∧ e.position = some (k + 1)) ∨ (r ≠ .inProgress ∧ e.position = some 0)) := by
  rcases acceptByte_cases h with ⟨hl, -, rfl, rfl⟩ | ⟨hl, -, rfl, rfl⟩ | ⟨hl, -, rfl, rfl⟩ | ⟨hl, -, rfl, rfl⟩ |
    ⟨hb, hl, -, rfl, rfl⟩ | ⟨_, _, _, _, _, hl, hz, rfl, rfl⟩ | ⟨_, _, _, _, _, hl, -, rfl, rfl⟩ |
    ⟨pb, hl, -, rfl, rfl⟩ | ⟨pb, hl, hc, rfl, rfl⟩ | ⟨cb, hl, -, rfl, rfl⟩ | ⟨_, hl, -, rfl, rfl⟩ | ⟨_, hl, -, rfl, rfl⟩
  · exact ⟨0, by rw [Pfd.position, hl], .inl ⟨rfl, rfl⟩⟩
  · exact ⟨0, by rw [Pfd.position, hl], .inr ⟨nofun, by rw [Pfd.position, hl]⟩⟩
  · exact ⟨1, by rw [Pfd.position, hl], .inl ⟨rfl, rfl⟩⟩
  · exact ⟨1, by rw [Pfd.position, hl], .inr ⟨nofun, rfl⟩⟩
  · exact ⟨2 + hb.length, by rw [Pfd.position, hl], .inl ⟨rfl, by simp [Pfd.position, Nat.add_assoc]⟩⟩
  · exact ⟨7, by rw [Pfd.position, hl]; rfl, .inl ⟨rfl, by simp [Pfd.position, hz]⟩⟩
  · exact ⟨7, by rw [Pfd.position, hl]; rfl, .inl ⟨rfl, rfl⟩⟩
  · exact ⟨8 + pb.length, by rw [Pfd.position, hl], .inl ⟨rfl, by simp [Pfd.position, Nat.add_assoc]⟩⟩
  · exact ⟨8 + pb.length, by rw [Pfd.position, hl], .inl ⟨rfl, by simp [Pfd.position, ← hc, Nat.add_assoc]⟩⟩
  · exact ⟨8 + d.msg.payloadLength.toNat + cb.length, by rw [Pfd.position, hl],
      .inl ⟨rfl, by simp [Pfd.position, Nat.add_assoc]⟩⟩
  · exact ⟨_, by rw [Pfd.position, hl], .inr ⟨nofun, rfl⟩⟩
  · exact ⟨_, by rw [Pfd.position, hl], .inr ⟨nofun, rfl⟩⟩

/-- The byte of a finalizing step is the second of a trailer, which stands behind the two magic bytes, the six header
bytes and the first trailer byte at least. -/
theorem position_of_finalizes {P : Config.Params} {d e : Pfd} {b : Byte} {r : Result} {k : Nat}
    (h : acceptByte P d b = .next (e, r)) (hr : r.finalizes) (hk : d.position = some k) : 9 ≤ k := by
  have hl : ∃ c0, d.live = .readingChecksum [c0] := by
    rcases acceptByte_result_cause h with rfl | ⟨rfl, -⟩ | ⟨c0, -, hl, -⟩ | ⟨c0, -, hl, -⟩
    · exact hr.elim
    · exact hr.elim
    · exact ⟨c0, hl⟩
    · exact ⟨c0, hl⟩
  obtain ⟨c0, hl⟩ := hl
  simp only [Pfd.position, hl, Option.some.injEq, List.length_singleton] at hk
  omega

/-- From position `k` at least `10 - k` bytes are needed to finalize a frame, since each adds at most one. -/
theorem ten_le_position_add_length {P : Config.Params} {d e : Pfd} {bs : List Byte} {rs : List Result} {k : Nat}
    (h : acceptBytes P d bs = .next (e, rs)) (hrs : ∃ r ∈ rs, r.finalizes) (hk : d.position = some k) :
    10 ≤ k + bs.length := by
  induction bs generalizing d rs k with
  | nil => cases h; simp at hrs
  | cons b bs ih =>
    obtain ⟨x, r, qs, hbyte, hbytes, rfl⟩ := acceptBytes_cons_next h
    rw [List.length_cons]
    obtain ⟨q, hq, hfinalizes⟩ := hrs
    rcases List.mem_cons.mp hq with rfl | hq
    · have := position_of_finalizes hbyte hfinalizes hk
      omega
    · obtain ⟨k', hk', hnext⟩ := acceptByte_position hbyte
      obtain rfl : k = k' := by simpa [hk] using hk'
      rcases hnext with ⟨-, hx⟩ | ⟨-, hx⟩
      · have := ih hbytes ⟨q, hq, hfinalizes⟩ hx
        omega
      · have := ih hbytes ⟨q, hq, hfinalizes⟩ hx
        omega

/-- Settles O42: `AwaitingStart1` is position 0. -/
theorem finalizingStepsAreTenBytesApart : Obligations.FinalizingStepsAreTenBytesApart := by
  unfold Obligations.FinalizingStepsAreTenBytesApart
  intro P bs d e rs hl h hrs
  have hk : d.position = some 0 := by rw [Pfd.position, hl]
  simpa using ten_le_position_add_length h hrs hk

/-! ### Start detection on several bytes (R84) -/

/-- Two copies of `MAGIC0` that is not `MAGIC1`: the second fails and is not looked at again. -/
theorem acceptBytes_magic0_magic0 {P : Config.Params} {d : Pfd} (hne : P.magic0 ≠ P.magic1)
    (hl : d.live = .awaitingStart1) :
    acceptBytes P d [P.magic0, P.magic0] =
      .next ({ d with live := .awaitingStart1, acc := 0#16 }, [.inProgress, .error .invalidStartByte]) := by
  have hfirst := acceptByte_awaitingStart1 P P.magic0 hl
  rw [if_pos rfl] at hfirst
  refine acceptBytes_cons hfirst (acceptBytes_cons ?_ rfl)
  rw [acceptByte_awaitingStart2 P P.magic0 rfl, if_neg hne]

/-- The two magic bytes open the header. -/
theorem acceptBytes_magic {P : Config.Params} {d : Pfd} (hl : d.live = .awaitingStart1) :
    acceptBytes P d [P.magic0, P.magic1] =
      .next ({ d with live := .readingHeader [], acc := addByte (zext16 P.magic0) P.magic1 },
        [.inProgress, .inProgress]) := by
  have hfirst := acceptByte_awaitingStart1 P P.magic0 hl
  rw [if_pos rfl] at hfirst
  refine acceptBytes_cons hfirst (acceptBytes_cons ?_ rfl)
  rw [acceptByte_awaitingStart2 P P.magic1 rfl, if_pos rfl]

/-- Settles O54: by induction on pairs of copies, each of which leads back to `AwaitingStart1`. -/
theorem repeatedFirstMagicByteParity : Obligations.RepeatedFirstMagicByteParity := by
  unfold Obligations.RepeatedFirstMagicByteParity
  intro P d n hne hl
  induction n using Nat.twoStepInduction generalizing d with
  | zero =>
    have hbyte := acceptByte_awaitingStart1 P P.magic1 hl
    rw [if_neg hne.symm] at hbyte
    exact ⟨d, _, acceptBytes_cons hbyte rfl, nofun, fun _ => hl⟩
  | one => exact ⟨_, _, acceptBytes_magic hl, fun _ => rfl, nofun⟩
  | more n ih _ =>
    obtain ⟨e, rs, hbytes, hodd, heven⟩ := ih { d with live := .awaitingStart1, acc := 0#16 } rfl
    have hpair := acceptBytes_append (acceptBytes_magic0_magic0 hne hl) hbytes
    rw [Nat.add_mod_right]
    exact ⟨e, _, hpair, hodd, heven⟩

/-- Header bytes short of the sixth are taken whatever they are (R90). -/
theorem acceptBytes_header (P : Config.Params) {d : Pfd} {hb : List Byte} (bs : List Byte)
    (hl : d.live = .readingHeader hb) (hlen : hb.length + bs.length ≤ 5) :
    acceptBytes P d bs =
      .next ({ d with live := .readingHeader (hb ++ bs), acc := addBytes d.acc bs },
        List.replicate bs.length .inProgress) := by
  induction bs generalizing d hb with
  | nil => rw [List.append_nil, ← hl]; rfl
  | cons b bs ih =>
    rw [List.length_cons] at hlen
    have hbyte := acceptByte_header_acc P b hl (by omega)
    rw [acceptBytes_cons hbyte (ih rfl (by simp; omega))]
    simp [List.replicate_succ]

/-- Settles O55: the first two copies open the header, the others fill it. -/
theorem equalMagicBytesFillTheHeader : Obligations.EqualMagicBytesFillTheHeader := by
  unfold Obligations.EqualMagicBytesFillTheHeader
  intro P d n heq hl h2 h7
  obtain ⟨k, rfl⟩ := Nat.exists_eq_add_of_le h2
  have hfill : k ≤ 5 := by omega
  have hbytes := acceptBytes_append (acceptBytes_magic hl)
    (acceptBytes_header P (List.replicate k P.magic0) rfl (by simpa using hfill))
  have hsplit : List.replicate (2 + k) P.magic0 = [P.magic0, P.magic1] ++ List.replicate k P.magic0 := by
    rw [← heq, List.replicate_add]
    rfl
  rw [← hsplit] at hbytes
  exact ⟨_, _, hbytes, by simp⟩

/-! ### The payload (R164) -/

/-- Settles O57: by induction on the bytes still declared, of which only the last completes the payload. -/
theorem declaredPayloadIsTakenWhole : Obligations.DeclaredPayloadIsTakenWhole := by
  unfold Obligations.DeclaredPayloadIsTakenWhole
  intro P bs d pb hl hne hlen
  induction bs generalizing d pb with
  | nil => exact absurd rfl hne
  | cons b bs ih =>
    have hbyte := acceptByte_payload P b hl
    rw [List.length_cons] at hlen
    cases bs with
    | nil =>
      rw [List.length_nil, Nat.zero_add] at hlen
      rw [if_pos hlen] at hbyte
      exact ⟨_, acceptBytes_cons hbyte rfl, rfl, rfl, rfl⟩
    | cons c bs =>
      have hmore : pb.length + 1 ≠ d.msg.payloadLength.toNat := by rw [List.length_cons] at hlen; omega
      rw [if_neg hmore] at hbyte
      have hrest : (Memory.append pb b).length + (c :: bs).length = d.msg.payloadLength.toNat := by
        rw [append_length]; omega
      obtain ⟨e, hbytes, hlive, hmsg, hres⟩ :=
        ih { d with live := .readingPayload (Memory.append pb b), acc := addByte d.acc b } (Memory.append pb b) rfl
          (List.cons_ne_nil c bs) hrest
      refine ⟨e, acceptBytes_cons hbyte hbytes, hlive, ?_, hres⟩
      rw [hmsg, Memory.append, List.append_assoc]
      rfl

/-! ### Two decoders in `AwaitingStart1` (R28) -/

/-- What two blocks have in common once they have taken the same bytes from `AwaitingStart1`: the phase with the live
buffer, and of `MSG` what the bytes of this frame have written (R91, R92, R101). -/
def SameFrame (d e : Pfd) : Prop :=
  d.live = e.live ∧
    match d.live with
    | .readingPayload _ => ∃ p c, e.msg = { d.msg with payload := p, checksum := c }
    | .readingChecksum _ => ∃ c, e.msg = { d.msg with checksum := c }
    | _ => True

/-- Two blocks with the same frame give a byte the same result and have the same frame after it: `ACC` and `RES` are not
read, nor what the frame has not yet written of `MSG`. -/
theorem acceptByte_sameFrame (P : Config.Params) {d e : Pfd} (b : Byte) (h : SameFrame d e) (hd : d.live.assigned) :
    ∃ (d' e' : Pfd) (r : Result),
      acceptByte P d b = .next (d', r) ∧ acceptByte P e b = .next (e', r) ∧ SameFrame d' e' := by
  obtain ⟨hlive, hmsg⟩ := h
  cases hl : d.live with
  | awaitingStart1 =>
    rw [acceptByte_awaitingStart1 P b hl, acceptByte_awaitingStart1 P b (hlive ▸ hl)]
    split
    · exact ⟨_, _, _, rfl, rfl, rfl, trivial⟩
    · exact ⟨_, _, _, rfl, rfl, hlive, by rw [hl]; trivial⟩
  | awaitingStart2 =>
    rw [acceptByte_awaitingStart2 P b hl, acceptByte_awaitingStart2 P b (hlive ▸ hl)]
    split
    · exact ⟨_, _, _, rfl, rfl, rfl, trivial⟩
    · exact ⟨_, _, _, rfl, rfl, rfl, trivial⟩
  | readingHeader hb =>
    by_cases h5 : hb.length = 5
    · match hb, h5 with
      | [h0, h1, h2, h3, h4], _ =>
        rw [acceptByte_header_end P b hl, acceptByte_header_end P b (hlive ▸ hl)]
        split
        · exact ⟨_, _, _, rfl, rfl, rfl, e.msg.checksum, rfl⟩
        · exact ⟨_, _, _, rfl, rfl, rfl, e.msg.payload, e.msg.checksum, rfl⟩
    · rw [acceptByte_header_acc P b hl h5, acceptByte_header_acc P b (hlive ▸ hl) h5]
      exact ⟨_, _, _, rfl, rfl, rfl, trivial⟩
  | readingPayload pb =>
    rw [hl] at hmsg
    obtain ⟨p, c, hmsg⟩ := hmsg
    rw [acceptByte_payload P b hl, acceptByte_payload P b (hlive ▸ hl), hmsg]
    split
    · exact ⟨_, _, _, rfl, rfl, rfl, c, rfl⟩
    · exact ⟨_, _, _, rfl, rfl, rfl, p, c, rfl⟩
  | readingChecksum cb =>
    rw [hl] at hmsg
    obtain ⟨c, hmsg⟩ := hmsg
    by_cases h1 : cb.length = 1
    · match cb, h1 with
      | [c0], _ =>
        have hcksum : cksum P e.msg = cksum P d.msg := by rw [hmsg]; rfl
        have htrailer : withTrailer e.msg c0 b = withTrailer d.msg c0 b := by rw [hmsg]; rfl
        rw [acceptByte_trailer_end P b hl, acceptByte_trailer_end P b (hlive ▸ hl), hcksum, htrailer]
        split
        · exact ⟨_, _, _, rfl, rfl, rfl, trivial⟩
        · exact ⟨_, _, _, rfl, rfl, rfl, trivial⟩
    · rw [acceptByte_trailer_acc P b hl h1, acceptByte_trailer_acc P b (hlive ▸ hl) h1]
      exact ⟨_, _, _, rfl, rfl, rfl, c, hmsg⟩
  | unassigned c => rw [hl] at hd; exact hd.elim
  | powerUp => rw [hl] at hd; exact hd.elim

theorem acceptBytes_sameFrame (P : Config.Params) (bs : List Byte) {d e : Pfd} (h : SameFrame d e)
    (hd : d.live.assigned) :
    ∃ (d' e' : Pfd) (rs : List Result),
      acceptBytes P d bs = .next (d', rs) ∧ acceptBytes P e bs = .next (e', rs) ∧ SameFrame d' e' := by
  induction bs generalizing d e with
  | nil => exact ⟨d, e, [], rfl, rfl, h⟩
  | cons b bs ih =>
    obtain ⟨x, y, r, hx, hy, hxy⟩ := acceptByte_sameFrame P b h hd
    obtain ⟨d', e', rs, hd', he', hsame⟩ := ih hxy (assigned_next hx)
    exact ⟨d', e', r :: rs, acceptBytes_cons hx hd', acceptBytes_cons hy he', hsame⟩

/-- Settles O56: in `AwaitingStart1` no byte of a frame has been taken, so any two blocks have the same. -/
theorem awaitingStart1IsAsFresh : Obligations.AwaitingStart1IsAsFresh := by
  unfold Obligations.AwaitingStart1IsAsFresh
  intro P bs d e hd he
  have hsame : SameFrame d e := ⟨hd.trans he.symm, by rw [hd]; trivial⟩
  obtain ⟨d', e', rs, hd', he', hlive, -⟩ := acceptBytes_sameFrame P bs hsame (by rw [hd]; trivial)
  exact ⟨d', e', rs, hd', he', hlive⟩

end Sys2Proof.Machine
end

section
/-! SUPPORT. A frame taken byte by byte into a block that awaits `MAGIC0`, field after field, and the round trip
(`46_reference_encoder.md` R132). -/

namespace Sys2Proof.Machine

/-- The six header bytes of a message (R52). -/
def headerBytes (m : Message) : List Byte :=
  [lo8 m.payloadLength, hi8 m.payloadLength, lo8 m.messageId, hi8 m.messageId, m.srcDeviceId, m.dstDeviceId]

theorem summedBytes_eq (P : Config.Params) (m : Message) :
    summedBytes P m = [P.magic0, P.magic1] ++ headerBytes m ++ m.payload := rfl

/-- Six bytes in a block whose header is open: their fields stand in `MSG`, and the phase is the payload's, or the
trailer's for a length of 0 (R90 to R92). -/
theorem acceptBytes_sixBytes (P : Config.Params) {d : Pfd} (h0 h1 h2 h3 h4 h5 : Byte)
    (hl : d.live = .readingHeader []) :
    ∃ e, acceptBytes P d [h0, h1, h2, h3, h4, h5] = .next (e, List.replicate 6 .inProgress) ∧
      (le16 h0 h1 = 0#16 → e.live = .readingChecksum [] ∧
        e.msg = { withHeader d.msg h0 h1 h2 h3 h4 h5 with payload := [] }) ∧
      (le16 h0 h1 ≠ 0#16 → e.live = .readingPayload [] ∧ e.msg = withHeader d.msg h0 h1 h2 h3 h4 h5) := by
  have hfive := acceptBytes_header P [h0, h1, h2, h3, h4] hl (Nat.le_refl 5)
  have hlive : ({ d with live := .readingHeader [h0, h1, h2, h3, h4], acc := addBytes d.acc [h0, h1, h2, h3, h4] } :
      Pfd).live = .readingHeader [h0, h1, h2, h3, h4] := rfl
  have hsixth := acceptByte_header_end P h5 hlive
  by_cases hz : le16 h0 h1 = 0#16
  · rw [if_pos hz] at hsixth
    exact ⟨_, acceptBytes_append hfive (acceptBytes_cons hsixth rfl), fun _ => ⟨rfl, rfl⟩, fun hn => absurd hz hn⟩
  · rw [if_neg hz] at hsixth
    exact ⟨_, acceptBytes_append hfive (acceptBytes_cons hsixth rfl), fun hn => absurd hn hz, fun _ => ⟨rfl, rfl⟩⟩

/-- The header of a message, assembled again (R52). -/
theorem acceptBytes_headerBytes (P : Config.Params) {d : Pfd} (m : Message) (hl : d.live = .readingHeader []) :
    ∃ e, acceptBytes P d (headerBytes m) = .next (e, List.replicate 6 .inProgress) ∧
      (m.payloadLength = 0#16 → e.live = .readingChecksum [] ∧
        e.msg = { m with payload := [], checksum := d.msg.checksum }) ∧
      (m.payloadLength ≠ 0#16 → e.live = .readingPayload [] ∧
        e.msg = { m with payload := d.msg.payload, checksum := d.msg.checksum }) := by
  have hsix := acceptBytes_sixBytes P (lo8 m.payloadLength) (hi8 m.payloadLength) (lo8 m.messageId) (hi8 m.messageId)
    m.srcDeviceId m.dstDeviceId hl
  simpa only [headerBytes, withHeader, le16_lo8_hi8] using hsix

/-- The bytes of a complete message before its trailer: all of them proceed, and `MSG` is the message but for the
checksum field, which is still to come. -/
theorem acceptBytes_summedBytes (P : Config.Params) {d : Pfd} {m : Message}
    (hm : m.payload.length = m.payloadLength.toNat) (hl : d.live = .awaitingStart1) :
    ∃ e, acceptBytes P d (summedBytes P m) =
        .next (e, List.replicate (8 + m.payloadLength.toNat) .inProgress) ∧
      e.live = .readingChecksum [] ∧ e.msg = { m with checksum := d.msg.checksum } := by
  have hopen : ({ d with live := .readingHeader [], acc := addByte (zext16 P.magic0) P.magic1 } : Pfd).live =
      .readingHeader [] := rfl
  obtain ⟨x, hheader, hzero, hpos⟩ := acceptBytes_headerBytes P m hopen
  have hfixed := acceptBytes_append (acceptBytes_magic hl) hheader
  by_cases hz : m.payloadLength = 0#16
  · obtain ⟨hlive, hmsg⟩ := hzero hz
    have hnil : m.payload = [] := by rw [← List.length_eq_zero_iff, hm, hz]; rfl
    refine ⟨x, ?_, hlive, ?_⟩
    · rw [summedBytes_eq, hnil, List.append_nil, hz]
      exact hfixed
    · rw [hmsg, ← hnil]
  · obtain ⟨hlive, hmsg⟩ := hpos hz
    have hlen : ([] : Memory).length + m.payload.length = x.msg.payloadLength.toNat := by
      rw [hmsg, hm]; exact Nat.zero_add _
    have hne : m.payload ≠ [] := by
      rw [← List.length_pos_iff, hm]
      exact Nat.pos_of_ne_zero fun h0 => hz (BitVec.eq_of_toNat_eq h0)
    obtain ⟨e, hpayload, hlive', hmsg', -⟩ := declaredPayloadIsTakenWhole P m.payload x [] hlive hne hlen
    refine ⟨e, ?_, hlive', ?_⟩
    · rw [summedBytes_eq, acceptBytes_append hfixed hpayload, List.replicate_add, hm]
      rfl
    · rw [hmsg', hmsg]
      rfl

/-- A trailer that carries `checksum` finalizes the frame with that field, as `Success` exactly if it is `CKSUM`. -/
theorem acceptBytes_trailer (P : Config.Params) {d : Pfd} (c : U16) (hl : d.live = .readingChecksum []) :
    acceptBytes P d [lo8 c, hi8 c] =
      if c = cksum P d.msg then
        .next ({ Pfd.initial with res := some ⟨.success, { d.msg with checksum := c }⟩ },
          [.inProgress, .success { d.msg with checksum := c }])
      else
        .next ({ Pfd.initial with res := some ⟨.checksumError, { d.msg with checksum := c }⟩ },
          [.inProgress, .error (.checksumError { d.msg with checksum := c })]) := by
  have hfirst := acceptByte_trailer_acc P (lo8 c) hl Nat.zero_ne_one
  have hlive : ({ d with live := .readingChecksum [lo8 c] } : Pfd).live = .readingChecksum [lo8 c] := rfl
  have hsecond := acceptByte_trailer_end P (hi8 c) hlive
  simp only [withTrailer, le16_lo8_hi8, finalize_eq_initial] at hsecond
  split
  · next hc =>
    rw [if_pos hc] at hsecond
    exact acceptBytes_cons hfirst (acceptBytes_cons hsecond rfl)
  · next hc =>
    rw [if_neg hc] at hsecond
    exact acceptBytes_cons hfirst (acceptBytes_cons hsecond rfl)

/-- The frame of a complete message, from `AwaitingStart1`. -/
theorem acceptBytes_serialize (P : Config.Params) {d : Pfd} {m : Message}
    (hm : m.payload.length = m.payloadLength.toNat) (hl : d.live = .awaitingStart1) :
    acceptBytes P d (serialize P m) =
      if m.checksum = cksum P m then
        .next ({ Pfd.initial with res := some ⟨.success, m⟩ },
          List.replicate (9 + m.payloadLength.toNat) Result.inProgress ++ [.success m])
      else
        .next ({ Pfd.initial with res := some ⟨.checksumError, m⟩ },
          List.replicate (9 + m.payloadLength.toNat) Result.inProgress ++ [.error (.checksumError m)]) := by
  obtain ⟨e, hsummed, hlive, hmsg⟩ := acceptBytes_summedBytes P hm hl
  have htrailer := acceptBytes_trailer P m.checksum hlive
  have hcksum : cksum P { m with checksum := d.msg.checksum } = cksum P m := rfl
  have hcount (x : Result) : List.replicate (9 + m.payloadLength.toNat) Result.inProgress ++ [x] =
      List.replicate (8 + m.payloadLength.toNat) Result.inProgress ++ [.inProgress, x] := by
    rw [show 9 + m.payloadLength.toNat = 8 + m.payloadLength.toNat + 1 by omega, List.replicate_succ',
      List.append_assoc]
    rfl
  rw [hmsg, hcksum] at htrailer
  rw [serialize_eq, hcount, hcount]
  split
  · next hc =>
    rw [if_pos hc] at htrailer
    exact acceptBytes_append hsummed htrailer
  · next hc =>
    rw [if_neg hc] at htrailer
    exact acceptBytes_append hsummed htrailer

/-- Settles O52: the frame's checksum decides between the two branches, and `SETCRC` makes it the first. -/
theorem framesRoundTrip : Obligations.FramesRoundTrip := by
  unfold Obligations.FramesRoundTrip
  intro P m d hm hl
  refine ⟨fun hc => ?_, fun hc => ?_, ?_⟩
  · rw [acceptBytes_serialize P hm hl, if_pos hc]
  · rw [acceptBytes_serialize P hm hl, if_neg hc]
  · have hset : (setcrc P m).payload.length = (setcrc P m).payloadLength.toNat := hm
    rw [acceptBytes_serialize P hset hl, setcrc_checksum, cksum_setcrc, if_pos rfl, setcrc_payloadLength]

end Sys2Proof.Machine
end

section
/-! SUPPORT. The block's invariant (R20): every byte keeps it, and what follows from it (`10_state.md`,
`70_reset_and_hazards.md` section 2). -/

namespace Sys2Proof.Machine

/-! ### Every byte keeps the invariant -/

/-- The first byte of a sum that starts at 0 (R80, R72). -/
@[simp] theorem addByte_zero (b : Byte) : addByte 0#16 b = zext16 b := BitVec.zero_add _

theorem summedBytes_payload (P : Config.Params) (m : Message) (p : List Byte) :
    summedBytes P { m with payload := p } = summedBytes P { m with payload := [] } ++ p := rfl

/-- `ACC` after a payload byte is the sum with that byte in the payload (R100, R101). -/
theorem addByte_summedBytes (P : Config.Params) (m : Message) (p : List Byte) (b : Byte) :
    addByte (addBytes 0#16 (summedBytes P { m with payload := p })) b =
      addBytes 0#16 (summedBytes P { m with payload := Memory.append p b }) := by
  rw [summedBytes_payload, summedBytes_payload P m (Memory.append p b), Memory.append, ← List.append_assoc,
    addBytes_snoc]

/-- `ACC` after the sixth header byte is the sum of the frame with the fields the header gives and no payload yet (R91,
R92). -/
theorem addByte_withHeader (P : Config.Params) (m : Message) (h0 h1 h2 h3 h4 b : Byte) :
    addByte (addBytes 0#16 ([P.magic0, P.magic1] ++ [h0, h1, h2, h3, h4])) b =
      addBytes 0#16 (summedBytes P { withHeader m h0 h1 h2 h3 h4 b with payload := [] }) := by
  have hbytes : summedBytes P { withHeader m h0 h1 h2 h3 h4 b with payload := [] } =
      [P.magic0, P.magic1] ++ [h0, h1, h2, h3, h4] ++ [b] :=
    summedBytes_withHeader P { m with payload := [] } h0 h1 h2 h3 h4 b
  rw [hbytes, addBytes_snoc]

section
variable {P : Config.Params} {d : Pfd}

theorem phaseInv_awaitingStart2 (hl : d.live = .awaitingStart2) : d.phaseInv P ↔ d.acc = zext16 P.magic0 := by
  rw [Pfd.phaseInv, hl]

theorem phaseInv_readingHeader {hb : List Byte} (hl : d.live = .readingHeader hb) :
    d.phaseInv P ↔ hb.length ≤ 5 ∧ d.acc = addBytes 0#16 ([P.magic0, P.magic1] ++ hb) := by
  rw [Pfd.phaseInv, hl]

theorem phaseInv_readingPayload {pb : Memory} (hl : d.live = .readingPayload pb) :
    d.phaseInv P ↔ 1 ≤ d.msg.payloadLength.toNat ∧ pb.length < d.msg.payloadLength.toNat ∧
      d.acc = addBytes 0#16 (summedBytes P { d.msg with payload := pb }) := by
  rw [Pfd.phaseInv, hl]

theorem phaseInv_readingChecksum {cb : List Byte} (hl : d.live = .readingChecksum cb) :
    d.phaseInv P ↔
      d.msg.payload.length = d.msg.payloadLength.toNat ∧ cb.length ≤ 1 ∧ d.acc = cksum P d.msg := by
  rw [Pfd.phaseInv, hl]

/-- Until the header is complete `MSG` is the initial message (D9, log entry 3). -/
theorem deadInv_initialMessage (h : d.deadInv)
    (hl : d.live = .awaitingStart1 ∨ d.live = .awaitingStart2 ∨ ∃ hb, d.live = .readingHeader hb) :
    d.msg = initialMessage := by
  rcases hl with hl | hl | ⟨hb, hl⟩ <;> rw [Pfd.deadInv, hl] at h
  · exact h.left
  · exact h
  · exact h

theorem deadInv_readingPayload {pb : Memory} (hl : d.live = .readingPayload pb) :
    d.deadInv ↔ d.msg.payload = [] ∧ d.msg.checksum = 0#16 := by
  rw [Pfd.deadInv, hl]

theorem deadInv_readingChecksum {cb : List Byte} (hl : d.live = .readingChecksum cb) :
    d.deadInv ↔ d.msg.checksum = 0#16 := by
  rw [Pfd.deadInv, hl]

/-- FINALIZE fills the bank with a complete message and the kind of its comparison, and leaves the rest initial. -/
theorem inv_finalize {k : ResKind} {c0 b : Byte} (hd : d.phaseInv P) (hl : d.live = .readingChecksum [c0])
    (hk : k = .success ↔ le16 c0 b = cksum P d.msg) : (finalize k (withTrailer d.msg c0 b) d).Inv P := by
  obtain ⟨hlen, -, -⟩ := (phaseInv_readingChecksum hl).mp hd
  refine ⟨trivial, ⟨rfl, rfl⟩, ?_⟩
  rintro r ⟨⟩
  exact ⟨hlen, hk⟩

end

theorem acceptByte_inv {P : Config.Params} {d e : Pfd} {b : Byte} {r : Result} (hd : d.Inv P)
    (h : acceptByte P d b = .next (e, r)) : e.Inv P := by
  obtain ⟨hphase, hdead, hbank⟩ := hd
  rcases acceptByte_cases h with ⟨hl, -, -, rfl⟩ | ⟨-, -, -, rfl⟩ | ⟨hl, -, -, rfl⟩ | ⟨hl, -, -, rfl⟩ |
    ⟨hb, hl, hn, -, rfl⟩ | ⟨h0, h1, h2, h3, h4, hl, hz, -, rfl⟩ | ⟨h0, h1, h2, h3, h4, hl, hz, -, rfl⟩ |
    ⟨pb, hl, hn, -, rfl⟩ | ⟨pb, hl, hn, -, rfl⟩ | ⟨cb, hl, hn, -, rfl⟩ | ⟨c0, hl, hc, -, rfl⟩ | ⟨c0, hl, hc, -, rfl⟩
  · have hmsg := deadInv_initialMessage hdead (.inl hl)
    exact ⟨rfl, hmsg, hbank⟩
  · exact ⟨hphase, hdead, hbank⟩
  · have hmsg := deadInv_initialMessage hdead (.inr (.inl hl))
    refine ⟨⟨Nat.zero_le 5, ?_⟩, hmsg, hbank⟩
    rw [(phaseInv_awaitingStart2 hl).mp hphase]
    simp
  · have hmsg := deadInv_initialMessage hdead (.inr (.inl hl))
    exact ⟨trivial, ⟨hmsg, rfl⟩, hbank⟩
  · obtain ⟨hcount, hacc⟩ := (phaseInv_readingHeader hl).mp hphase
    have hmsg := deadInv_initialMessage hdead (.inr (.inr ⟨hb, hl⟩))
    have hlen : (hb ++ [b]).length ≤ 5 := by rw [List.length_append, List.length_singleton]; omega
    refine ⟨⟨hlen, ?_⟩, hmsg, hbank⟩
    rw [hacc, ← addBytes_snoc, List.append_assoc]
  · obtain ⟨-, hacc⟩ := (phaseInv_readingHeader hl).mp hphase
    have hmsg := deadInv_initialMessage hdead (.inr (.inr ⟨_, hl⟩))
    refine ⟨⟨by simp [hz], Nat.zero_le 1, ?_⟩, congrArg Message.checksum hmsg, hbank⟩
    rw [hacc, addByte_withHeader P d.msg, cksum_eq_sum]
  · obtain ⟨-, hacc⟩ := (phaseInv_readingHeader hl).mp hphase
    have hmsg := deadInv_initialMessage hdead (.inr (.inr ⟨_, hl⟩))
    have hpos : 0 < (le16 h0 h1).toNat := Nat.pos_of_ne_zero fun h => hz (BitVec.eq_of_toNat_eq h)
    refine ⟨⟨hpos, hpos, ?_⟩, ⟨congrArg Message.payload hmsg, congrArg Message.checksum hmsg⟩, hbank⟩
    rw [hacc, addByte_withHeader P d.msg]
  · obtain ⟨hpos, hcount, hacc⟩ := (phaseInv_readingPayload hl).mp hphase
    have hlen : (Memory.append pb b).length < d.msg.payloadLength.toNat := by rw [append_length]; omega
    refine ⟨⟨hpos, hlen, ?_⟩, (deadInv_readingPayload hl).mp hdead, hbank⟩
    rw [hacc, addByte_summedBytes]
  · obtain ⟨-, -, hacc⟩ := (phaseInv_readingPayload hl).mp hphase
    obtain ⟨-, hchecksum⟩ := (deadInv_readingPayload hl).mp hdead
    refine ⟨⟨by rw [append_length]; exact hn, Nat.zero_le 1, ?_⟩, hchecksum, hbank⟩
    rw [hacc, addByte_summedBytes, cksum_eq_sum]
  · obtain ⟨hlen, hcount, hacc⟩ := (phaseInv_readingChecksum hl).mp hphase
    have hcb : (cb ++ [b]).length ≤ 1 := by rw [List.length_append, List.length_singleton]; omega
    exact ⟨⟨hlen, hcb, hacc⟩, (deadInv_readingChecksum hl).mp hdead, hbank⟩
  · exact inv_finalize hphase hl (iff_of_true rfl hc)
  · exact inv_finalize hphase hl (iff_of_false nofun hc)

theorem acceptBytes_inv {P : Config.Params} {d e : Pfd} {bs : List Byte} {rs : List Result} (hd : d.Inv P)
    (h : acceptBytes P d bs = .next (e, rs)) : e.Inv P := by
  induction bs generalizing d rs with
  | nil => cases h; exact hd
  | cons b bs ih =>
    obtain ⟨x, r, qs, hbyte, hbytes, -⟩ := acceptBytes_cons_next h
    exact ih (acceptByte_inv hd hbyte) hbytes

/-- Settles O46: the twelve cases of a byte. -/
theorem acceptedByteKeepsTheInvariant : Obligations.AcceptedByteKeepsTheInvariant := by
  unfold Obligations.AcceptedByteKeepsTheInvariant
  exact fun _ _ _ _ _ => acceptByte_inv

/-! ### What the invariant says -/

theorem assigned_of_inv {P : Config.Params} {d : Pfd} (h : d.Inv P) : d.live.assigned := by
  have hphase := h.phase
  cases hl : d.live with
  | awaitingStart1 | awaitingStart2 | readingHeader | readingPayload | readingChecksum => trivial
  | unassigned | powerUp => rw [Pfd.phaseInv, hl] at hphase; exact hphase

theorem inv_initial (P : Config.Params) : Pfd.initial.Inv P :=
  ⟨trivial, ⟨rfl, rfl⟩, nofun⟩

/-- A port that reports no finalized frame agrees with every `RES` (R121). -/
theorem reportInv_of_idle {s : State} (h : s.result = none ∨ s.result = some .inProgress) : s.reportInv := by
  rcases h with h | h <;> exact ⟨by simp [h], by simp [h], by simp [h]⟩

/-- Settles O45: the initial block meets the invariant, nothing is reported and nothing is presented. -/
theorem resetMeetsTheInvariant : Obligations.ResetMeetsTheInvariant := by
  unfold Obligations.ResetMeetsTheInvariant
  exact ⟨⟨⟨inv_initial _, reportInv_of_idle (.inl rfl)⟩, nofun⟩, inv_initial⟩

/-- Settles O49: the counts of R20 in each phase, where no declared length exceeds `MAX_PAYLOAD`. -/
theorem buffersFitThePayloadMemory : Obligations.BuffersFitThePayloadMemory := by
  unfold Obligations.BuffersFitThePayloadMemory
  intro P d hd
  have hu16 (v : U16) : v.toNat ≤ Config.maxPayload := Nat.le_of_lt_succ v.isLt
  refine ⟨fun pb hl => ?_, fun cb hl => ?_, fun hb hl => ?_, fun r hres => ?_⟩
  · obtain ⟨-, hcount, -⟩ := (phaseInv_readingPayload hl).mp hd.phase
    have hlt : pb.length < Config.maxPayload := hcount.trans_le (hu16 _)
    exact ⟨hlt.le, Nat.le_of_lt_succ hlt⟩
  · obtain ⟨hlen, hcount, -⟩ := (phaseInv_readingChecksum hl).mp hd.phase
    exact ⟨hlen.trans_le (hu16 _), hcount⟩
  · obtain ⟨hcount, -⟩ := (phaseInv_readingHeader hl).mp hd.phase
    exact hcount
  · obtain ⟨hlen, hkind⟩ := hd.bank r hres
    exact ⟨hlen.trans_le (hu16 _), hlen, (valid_iff P r.msg).trans hkind.symm⟩

/-- The last byte of the longest frame is at position `8 + 65535 + 1` (R12). -/
theorem position_le_of_inv {P : Config.Params} {d : Pfd} {k : Nat} (hd : d.Inv P) (hk : d.position = some k) :
    k ≤ 65544 := by
  have hlen : d.msg.payloadLength.toNat < 65536 := d.msg.payloadLength.isLt
  cases hl : d.live with
  | awaitingStart1 => simp [Pfd.position, hl] at hk; omega
  | awaitingStart2 => simp [Pfd.position, hl] at hk; omega
  | readingHeader hb =>
    obtain ⟨hcount, -⟩ := (phaseInv_readingHeader hl).mp hd.phase
    simp [Pfd.position, hl] at hk; omega
  | readingPayload pb =>
    obtain ⟨-, hcount, -⟩ := (phaseInv_readingPayload hl).mp hd.phase
    simp [Pfd.position, hl] at hk; omega
  | readingChecksum cb =>
    obtain ⟨-, hcount, -⟩ := (phaseInv_readingChecksum hl).mp hd.phase
    simp [Pfd.position, hl] at hk; omega
  | unassigned c => simp [Pfd.position, hl] at hk
  | powerUp => simp [Pfd.position, hl] at hk

/-- Settles O50: the position law holds of every byte, and the invariant bounds the position. -/
theorem positionAdvancesByOneOrReturns : Obligations.PositionAdvancesByOneOrReturns := by
  unfold Obligations.PositionAdvancesByOneOrReturns
  intro P d e b r hd h
  obtain ⟨k, hk, hnext⟩ := acceptByte_position h
  exact ⟨k, hk, position_le_of_inv hd hk, hnext⟩

/-! ### Recovery (R166) -/

/-- Position 0 is `AwaitingStart1` and no other phase. -/
theorem awaitingStart1_of_position_zero {d : Pfd} (h : d.position = some 0) : d.live = .awaitingStart1 := by
  cases hl : d.live with
  | awaitingStart1 => rfl
  | awaitingStart2 | readingHeader | readingPayload | readingChecksum => simp [Pfd.position, hl] at h
  | unassigned | powerUp => simp [Pfd.position, hl] at h

/-- Each byte from position `k` on either returns to 0 or leaves one fewer of the `65545 - k` positions to come. -/
theorem recovers_of_position {P : Config.Params} {d : Pfd} {bs : List Byte} {k : Nat} (hd : d.Inv P)
    (hk : d.position = some k) (hlen : 65545 ≤ k + bs.length) :
    ∃ (n : Nat) (e : Pfd) (rs : List Result), n ≤ bs.length ∧
      acceptBytes P d (bs.take n) = .next (e, rs) ∧ e.live = .awaitingStart1 := by
  induction bs generalizing d k with
  | nil =>
    have := position_le_of_inv hd hk
    rw [List.length_nil] at hlen
    omega
  | cons b bs ih =>
    obtain ⟨x, r, hbyte⟩ := acceptByte_answers P b (assigned_of_inv hd)
    obtain ⟨k', hk', hnext⟩ := acceptByte_position hbyte
    obtain rfl : k = k' := by simpa [hk] using hk'
    rcases hnext with ⟨-, hx⟩ | ⟨-, hx⟩
    · rw [List.length_cons] at hlen
      obtain ⟨n, e, rs, hn, hbytes, hlive⟩ := ih (acceptByte_inv hd hbyte) hx (by omega)
      exact ⟨n + 1, e, r :: rs, Nat.succ_le_succ hn, acceptBytes_cons hbyte hbytes, hlive⟩
    · exact ⟨1, x, [r], Nat.succ_pos _, acceptBytes_cons hbyte rfl, awaitingStart1_of_position_zero hx⟩

/-- Settles O58: at position 0 no byte is needed, and from position 1 on 65544 bytes are enough. -/
theorem recoveryIsBounded : Obligations.RecoveryIsBounded := by
  unfold Obligations.RecoveryIsBounded
  intro P d bs hd hlen
  obtain ⟨e, r, hbyte⟩ := acceptByte_answers P 0#8 (assigned_of_inv hd)
  obtain ⟨k, hk, -⟩ := acceptByte_position hbyte
  rcases Nat.eq_zero_or_pos k with rfl | hpos
  · exact ⟨0, d, [], Nat.zero_le _, rfl, awaitingStart1_of_position_zero hk⟩
  · exact recovers_of_position hd hk (by omega)

end Sys2Proof.Machine
end

section
/-! SUPPORT. The machine's step by what it takes from the stream, everything it can do to the state, and the statements
about whole runs of it (`45_system.md`, `30_encoding.md` sections 4 and 5). -/

namespace Sys2Proof.Machine

/-! ### The pseudo-operations and the functions (R65, R66) -/

theorem exec_frame_of_le {id : U16} {src dst : Byte} {p : List Byte} (s : State) (h : p.length ≤ Config.maxPayload) :
    exec (.frame id src dst p) s =
      .next { s with input := (frameOf Config.params id src dst p).map Item.byte ++ s.input } :=
  if_pos h

theorem exec_frame_of_gt {id : U16} {src dst : Byte} {p : List Byte} (s : State) (h : Config.maxPayload < p.length) :
    exec (.frame id src dst p) s = .refused .frameTooLong :=
  if_neg h.not_ge

theorem exec_framex (len id : U16) (src dst : Byte) (p : List Byte) (c : U16) (s : State) :
    exec (.framex len id src dst p c) s =
      .next { s with input := (frameBytes Config.params len id src dst p c).map Item.byte ++ s.input } := rfl

theorem exec_noise (bs : List Byte) (s : State) :
    exec (.noise bs) s = .next { s with input := bs.map Item.byte ++ s.input } := rfl

theorem exec_step (b : Byte) (s : State) : exec (.step b) s = report (acceptByte Config.params s.pfd b) s := rfl

/-- Settles O22: each pseudo-operation is presented; the frame of at most 65535 payload bytes has their number in its
length field. -/
theorem pseudoOperationsExpandToTheirBytes : Obligations.PseudoOperationsExpandToTheirBytes := by
  unfold Obligations.PseudoOperationsExpandToTheirBytes
  intro s len id c src dst p
  refine ⟨fun hp => ?_, exec_frame_of_gt s, exec_framex len id src dst p c s, exec_noise p s⟩
  refine ⟨BitVec.ofNat 16 p.length, _, ?_, rfl, exec_frame_of_le s hp⟩
  rw [BitVec.toNat_ofNat, Nat.mod_eq_of_lt (Nat.lt_succ_of_le hp)]

/-- What a function or a pseudo-operation does: it hands a value to the host, or it puts bytes in front of the
stream. -/
inductive HostEffect (s : State) : State → Prop
  | answer (v : Value) : HostEffect s { s with value := some v }
  | present (bs : List Byte) : HostEffect s { s with input := bs.map Item.byte ++ s.input }

theorem hostEffect_of_exec {s t : State} {i : Instr} (h : exec i s = .next t) (hi : i.dispatched = false)
    (hreset : i ≠ .reset) (hstep : ∀ b, i ≠ .step b) (hfeed : ∀ bs, i ≠ .feed bs) : HostEffect s t := by
  cases i with
  | cksum m => cases h; exact .answer _
  | valid m => cases h; exact .answer _
  | length m => cases h; exact .answer _
  | setcrc m => cases h; exact .answer _
  | serialize m =>
    by_cases hm : m.payload.length = m.payloadLength.toNat
    · rw [exec_serialize_of_complete s hm] at h; cases h; exact .answer _
    · rw [exec_serialize_of_incomplete s hm] at h; cases h
  | frame id src dst p =>
    rcases Nat.lt_or_ge Config.maxPayload p.length with hp | hp
    · rw [exec_frame_of_gt s hp] at h; cases h
    · rw [exec_frame_of_le s hp] at h; cases h; exact .present _
  | framex len id src dst p c => cases h; exact .present _
  | noise bs => cases h; exact .present _
  | reset => exact absurd rfl hreset
  | step b => exact absurd rfl (hstep b)
  | feed bs => exact absurd rfl (hfeed bs)
  | s1Hit | s1Miss | s2Hit | s2Miss | hdrAcc | hdrEnd0 | hdrEndN => cases hi
  | payAcc | payEnd | ckAcc | ckOk | ckBad => cases hi

/-- Settles O25: either effect is on the host's value or on the stream. -/
theorem functionsLeaveTheBlockAlone : Obligations.FunctionsLeaveTheBlockAlone := by
  unfold Obligations.FunctionsLeaveTheBlockAlone
  intro s t m len id c src dst p i hi h
  have heffect : HostEffect s t := by
    simp only [List.mem_cons, List.not_mem_nil, or_false] at hi
    rcases hi with rfl | rfl | rfl | rfl | rfl | rfl | rfl | rfl <;>
      exact hostEffect_of_exec h rfl nofun nofun nofun
  cases heffect <;> exact ⟨rfl, rfl, rfl⟩

/-! ### One machine step, by the item it takes (R120, R122, R64) -/

theorem consume_eq {s : State} {x : Item} {rest : List Item} (hi : s.input = x :: rest) :
    consume s = { s with input := rest, result := none, draw := s.draw + 1 } := by
  rw [consume, hi, List.tail_cons]

/-- With nothing presented the item, if there is one, is consumed. -/
theorem step_of_idle {s : State} (hi : s.input = [] ∨ ∃ x rest, s.input = .cycle ⟨false, false, x⟩ :: rest) :
    step s = .next (consume s) := by
  rcases hi with hi | ⟨x, rest, hi⟩
  · simp only [step, fetch, hi]
  · simp only [step, fetch, hi, fetchCycle, Bool.false_eq_true, if_false]

/-- With a byte the machine does what the block does with it, stops included. -/
theorem step_of_byte {s : State} {b : Byte} {rest : List Item} (hi : s.input = .byte b :: rest) :
    step s = report (acceptByte Config.params s.pfd b) (consume s) := by
  simp only [step, fetch, hi, fetchCycle, fetchByte, Bool.false_eq_true, if_false, if_true]
  cases hs : select Config.params s.pfd b with
  | next i =>
    obtain ⟨-, hdispatched, -⟩ := select_wf hs
    rw [acceptByte_of_select hs]
    exact exec_perform hdispatched (consume s)
  | fault f => rw [acceptByte, hs]; rfl
  | refused x => rw [acceptByte, hs]; rfl

/-- The host never names an operation of R58 (R64). -/
theorem step_call_of_dispatched {s : State} {i : Instr} {rest : List Item} (hi : s.input = .call i :: rest)
    (h : i.dispatched = true) : step s = .refused .notInput := by
  simp only [step, fetch, hi, h, if_true]

/-- Settles O27: a formed word that decodes is a selection, and what is selected is performed. -/
theorem stepRunsTheDecodedOperation : Obligations.StepRunsTheDecodedOperation := by
  unfold Obligations.StepRunsTheDecodedOperation
  intro s rest i
  refine ⟨fun b w hi hw hdecode => ?_, fun hi hd => ?_, step_call_of_dispatched⟩
  · have hs := select_of_dispatchWord hw hdecode
    obtain ⟨-, hdispatched, -⟩ := select_wf hs
    rw [step_of_byte hi, acceptByte_of_select hs, ← consume_eq hi]
    exact (exec_perform hdispatched (consume s)).symm
  · rw [step_call hi hd, consume_eq hi]

/-- Settles O28: an idle cycle is consumed, and at the end of the stream nothing is left to consume. -/
theorem idleCycleChangesNothing : Obligations.IdleCycleChangesNothing := by
  unfold Obligations.IdleCycleChangesNothing
  intro s x rest hi
  rcases hi with hi | ⟨hi, rfl⟩
  · rw [step_of_idle (.inr ⟨x, rest, hi⟩), consume_eq hi]
  · rw [step_of_idle (.inl hi), consume, hi, List.tail_nil]

/-- Settles O30: the block stops on the byte, and `RESET` asks nothing of the block. -/
theorem neverResetAndStuckPhasesStop : Obligations.NeverResetAndStuckPhasesStop := by
  unfold Obligations.NeverResetAndStuckPhasesStop
  intro s b rest hi
  refine ⟨fun hl => ?_, fun c hl => ?_, _, exec_reset s, rfl⟩
  · rw [step_of_byte hi, acceptByte_powerUp _ b hl, report_of_refused]
  · rw [step_of_byte hi, acceptByte_unassigned _ b hl, report_of_fault]

/-! ### Everything a machine step can do -/

/-- What becomes of a state when an item of the stream is performed on it: nothing, `RESET`, one accepted byte, a
`FEED`, or what a function or a pseudo-operation does. -/
inductive Effect (s : State) : State → Prop
  | idle : Effect s s
  | reset : Effect s { s with pfd := Pfd.initial, result := none }
  | byte {b : Byte} {e : Pfd} {r : Result} (h : acceptByte Config.params s.pfd b = .next (e, r)) :
    Effect s { s with pfd := e, result := some r }
  | feed {bs : List Byte} {e : Pfd} {r : Result} {n : Nat} (h : feedLoop Config.params bs 0 s.pfd = .next (e, r, n)) :
    Effect s { s with pfd := e, result := if n = 0 then s.result else some r, value := some (.fed r n) }
  | host {t : State} (h : HostEffect s t) : Effect s t

theorem effect_of_report {s t : State} {b : Byte} (h : report (acceptByte Config.params s.pfd b) s = .next t) :
    Effect s t := by
  obtain ⟨e, r, ha, rfl⟩ := report_next h
  exact .byte ha

theorem effect_of_execFeed {s t : State} {bs : List Byte} (h : exec (.feed bs) s = .next t) : Effect s t := by
  simp only [exec, execFeed] at h
  split at h
  · next hloop => cases h; exact .feed hloop
  · cases h
  · cases h

theorem effect_of_exec {s t : State} {i : Instr} (hi : i.dispatched = false) (h : exec i s = .next t) :
    Effect s t := by
  cases i with
  | reset => cases h; exact .reset
  | step b => exact effect_of_report h
  | feed bs => exact effect_of_execFeed h
  | cksum | valid | length | setcrc | serialize => exact .host (hostEffect_of_exec h rfl nofun nofun nofun)
  | frame | framex | noise => exact .host (hostEffect_of_exec h rfl nofun nofun nofun)
  | s1Hit | s1Miss | s2Hit | s2Miss | hdrAcc | hdrEnd0 | hdrEndN => cases hi
  | payAcc | payEnd | ckAcc | ckOk | ckBad => cases hi

/-- A step that answers has performed its item on the state with that item consumed. -/
theorem effect_of_step {s t : State} (h : step s = .next t) : Effect (consume s) t := by
  match hi : s.input with
  | [] =>
    rw [step_of_idle (.inl hi)] at h
    cases h
    exact .idle
  | .cycle ⟨true, v, x⟩ :: rest =>
    rw [step_rst hi] at h
    exact effect_of_exec rfl h
  | .cycle ⟨false, true, b⟩ :: rest =>
    rw [step_of_byte hi] at h
    exact effect_of_report h
  | .cycle ⟨false, false, x⟩ :: rest =>
    rw [step_of_idle (.inr ⟨x, rest, hi⟩)] at h
    cases h
    exact .idle
  | .call i :: rest =>
    cases hd : i.dispatched with
    | true => rw [step_call_of_dispatched hi hd] at h; cases h
    | false =>
      rw [step_call hi hd] at h
      exact effect_of_exec hd h

/-! ### The machine's invariant (R20, R121) -/

/-- The port stands as long as what it reports and `RES` stand. -/
theorem reportInv_congr {s t : State} (hs : s.reportInv) (hresult : t.result = s.result)
    (hres : t.pfd.res = s.pfd.res) : t.reportInv := by
  rw [State.reportInv, hresult, hres]
  exact hs

/-- The port that reports an accepted byte agrees with the `RES` that byte leaves (R113, R121). -/
theorem reportInv_of_acceptByte {P : Config.Params} {d : Pfd} {t : State} {b : Byte} {r : Result}
    (h : acceptByte P d b = .next (t.pfd, r)) (hr : t.result = some r) : t.reportInv := by
  obtain ⟨hgood, hbad, -, -⟩ := resultsDetermineResAndReset P d t.pfd b r h
  rw [State.reportInv, hr]
  refine ⟨fun m hm => ?_, fun m hm => ?_, fun hm => ?_⟩
  · rw [hgood m (Option.some.inj hm)]
  · rw [hbad m (Option.some.inj hm)]
  · exact acceptByte_ne_incompleteData h (Option.some.inj hm)

/-- The last result of a row of bytes is that of the one byte that leads to the block at the end. -/
theorem acceptBytes_last {P : Config.Params} {d e : Pfd} {bs : List Byte} {rs : List Result} {r : Result}
    (h : acceptBytes P d bs = .next (e, rs ++ [r])) : ∃ x b, acceptByte P x b = .next (e, r) := by
  induction rs generalizing d bs with
  | nil =>
    cases bs with
    | nil => cases h
    | cons b bs =>
      obtain ⟨x, q, qs, hbyte, hbytes, hcons⟩ := acceptBytes_cons_next h
      cases hcons
      obtain rfl : bs = [] := List.length_eq_zero_iff.mp (acceptBytes_length hbytes).symm
      cases hbytes
      exact ⟨d, b, hbyte⟩
  | cons q rs ih =>
    cases bs with
    | nil => cases h
    | cons b bs =>
      obtain ⟨x, q, qs, hbyte, hbytes, hcons⟩ := acceptBytes_cons_next h
      cases hcons
      exact ih hbytes

/-- After `FEED` the port agrees with `RES`: only the last byte's result can be one that finalizes, and where no byte
was consumed the port and `RES` are as before. -/
theorem inv_of_feedLoop {P : Config.Params} {s t : State} {bs : List Byte} {r : Result} {n : Nat} (hs : s.Inv P)
    (h : feedLoop P bs 0 s.pfd = .next (t.pfd, r, n)) (hr : t.result = if n = 0 then s.result else some r) :
    t.Inv P := by
  rcases feedLoop_ends P bs 0 (assigned_of_inv hs.block) with ⟨e, hloop, hbytes⟩ | ⟨e, q, k, -, -, hloop, hbytes⟩ <;>
    obtain ⟨rfl, rfl, rfl⟩ : t.pfd = e ∧ _ ∧ _ := by simpa [h] using hloop
  · refine ⟨acceptBytes_inv hs.block hbytes, ?_⟩
    split at hr
    · refine reportInv_congr hs.report hr (acceptBytes_res hbytes fun x hx => ?_)
      rw [List.eq_of_mem_replicate hx]
      exact id
    · exact reportInv_of_idle (.inr hr)
  · obtain ⟨x, b, hbyte⟩ := acceptBytes_last hbytes
    refine ⟨acceptBytes_inv hs.block hbytes, reportInv_of_acceptByte hbyte ?_⟩
    rw [hr, if_neg (by omega)]

theorem effect_inv {s t : State} (hs : s.Inv Config.params) (h : Effect s t) : t.Inv Config.params := by
  cases h with
  | idle => exact hs
  | reset => exact ⟨inv_initial _, reportInv_of_idle (.inl rfl)⟩
  | byte h => exact ⟨acceptByte_inv hs.block h, reportInv_of_acceptByte h rfl⟩
  | feed h => exact inv_of_feedLoop hs h rfl
  | host h => cases h <;> exact ⟨hs.block, hs.report⟩

theorem consume_inv {P : Config.Params} {s : State} (hs : s.Inv P) : (consume s).Inv P :=
  ⟨hs.block, reportInv_of_idle (.inl rfl)⟩

/-- Settles O47: consuming an item keeps the invariant, and so does everything a step then does. -/
theorem stepKeepsTheInvariant : Obligations.StepKeepsTheInvariant := by
  unfold Obligations.StepKeepsTheInvariant
  exact fun s t hs h => effect_inv (consume_inv hs) (effect_of_step h)

/-! ### A safe machine (R61, R125) -/

theorem byte_wf (P : Config.Params) (b : Byte) : (Item.byte b).wf P = true := rfl

/-- The host keeps to its side: what a step puts in front of the stream are cycles. -/
theorem effect_hostWf {P : Config.Params} {s t : State} (hs : s.hostWf P) (h : Effect s t) : t.hostWf P := by
  cases h with
  | idle | reset | byte | feed => exact hs
  | host h =>
    cases h with
    | answer => exact hs
    | present bs =>
      intro x hx
      rcases List.mem_append.mp hx with hx | hx
      · obtain ⟨b, -, rfl⟩ := List.mem_map.mp hx
        exact byte_wf P b
      · exact hs x hx

theorem consume_hostWf {P : Config.Params} {s : State} (hs : s.hostWf P) : (consume s).hostWf P :=
  fun x hx => hs x (List.mem_of_mem_tail hx)

theorem step_safe {s t : State} (hs : s.Safe) (h : step s = .next t) : t.Safe :=
  ⟨stepKeepsTheInvariant s t hs.inv h, effect_hostWf (consume_hostWf hs.host) (effect_of_step h)⟩

/-- A well-formed call answers in every phase of R11. -/
theorem exec_answers {s : State} {i : Instr} (hs : s.pfd.live.assigned) (hi : i.dispatched = false)
    (hwf : i.wf Config.params = true) : ∃ t, exec i s = .next t := by
  cases i with
  | reset | cksum | valid | length | setcrc | framex | noise => exact ⟨_, rfl⟩
  | serialize m => exact ⟨_, exec_serialize_of_complete s ((complete_iff m).mp hwf)⟩
  | frame id src dst p => exact ⟨_, exec_frame_of_le s (of_decide_eq_true hwf)⟩
  | step b =>
    obtain ⟨e, r, h⟩ := acceptByte_answers Config.params b hs
    exact ⟨_, by rw [exec_step, h, report_of_next]⟩
  | feed bs =>
    obtain ⟨t, -, -, -, h, -⟩ := feedStopsAtTheFirstResult s bs hs
    exact ⟨t, h⟩
  | s1Hit | s1Miss | s2Hit | s2Miss | hdrAcc | hdrEnd0 | hdrEndN => cases hi
  | payAcc | payEnd | ckAcc | ckOk | ckBad => cases hi

/-- A safe machine takes its next step. -/
theorem step_answers {s : State} (hs : s.Safe) : ∃ t, step s = .next t := by
  have hd : s.pfd.live.assigned := assigned_of_inv hs.inv.block
  match hi : s.input with
  | [] => exact ⟨_, step_of_idle (.inl hi)⟩
  | .cycle ⟨true, v, x⟩ :: rest => exact ⟨_, step_rst hi⟩
  | .cycle ⟨false, true, b⟩ :: rest =>
    obtain ⟨e, r, h⟩ := acceptByte_answers Config.params b hd
    exact ⟨_, step_byte hi h⟩
  | .cycle ⟨false, false, x⟩ :: rest => exact ⟨_, step_of_idle (.inr ⟨x, rest, hi⟩)⟩
  | .call i :: rest =>
    have hwf : (!i.dispatched && i.wf Config.params) = true := hs.host (.call i) (by simp [hi])
    rw [Bool.and_eq_true, Bool.not_eq_true'] at hwf
    obtain ⟨hdispatched, hwf⟩ := hwf
    rw [step_call hi hdispatched]
    exact exec_answers hd hdispatched hwf

/-! ### Runs of the machine -/

theorem run_zero (s : State) : Host.Core.run Sys2Proof.core 0 s = .next s := rfl

theorem run_succ {s t : State} (k : Nat) (h : step s = .next t) :
    Host.Core.run Sys2Proof.core (k + 1) s = Host.Core.run Sys2Proof.core k t := by
  have hcore : Sys2Proof.core.step s = .next t := h
  simp only [Host.Core.run, hcore]

/-- Settles O48: by induction on the number of steps, each of which a safe machine takes and stays safe. -/
theorem safeMachineRunsForEver : Obligations.SafeMachineRunsForEver := by
  unfold Obligations.SafeMachineRunsForEver
  intro n s hs
  induction n generalizing s with
  | zero => exact ⟨s, run_zero s, hs⟩
  | succ n ih =>
    obtain ⟨t, h⟩ := step_answers hs
    rw [run_succ n h]
    exact ih t (step_safe hs h)

/-- Settles O31: by induction on the cycles: one with a byte is the block's step on it, one without leaves the block. -/
theorem gapsBetweenBytesDoNotMatter : Obligations.GapsBetweenBytesDoNotMatter := by
  unfold Obligations.GapsBetweenBytesDoNotMatter
  intro ps s d rs hi hrst h
  induction ps generalizing s rs with
  | nil => cases h; exact ⟨s, rfl, rfl, hi, rfl⟩
  | cons p ps ih =>
    obtain ⟨hp, hps⟩ := List.forall_mem_cons.mp hrst
    obtain ⟨rst, inValid, b⟩ := p
    obtain rfl : rst = false := hp
    cases inValid with
    | true =>
      obtain ⟨x, r, qs, hbyte, hbytes, -⟩ := acceptBytes_cons_next h
      obtain ⟨t, hrun, hpfd, hinput, hvalue⟩ :=
        ih { consume s with pfd := x, result := some r } qs (by simp [hi]) hps hbytes
      refine ⟨t, ?_, hpfd, hinput, hvalue⟩
      rw [List.length_cons, run_succ _ (step_byte hi hbyte), hrun]
    | false =>
      obtain ⟨t, hrun, hpfd, hinput, hvalue⟩ := ih (consume s) rs (by simp [hi]) hps h
      refine ⟨t, ?_, hpfd, hinput, hvalue⟩
      rw [List.length_cons, run_succ _ (step_of_idle (.inr ⟨b, _, hi⟩)), hrun]

/-- Bytes in the stream, one per step: the block after them, the last result on the port, the rest of the stream to
come. -/
theorem run_bytes {s : State} {bs : List Byte} {rest : List Item} {e : Pfd} {rs : List Result}
    (hi : s.input = bs.map Item.byte ++ rest) (h : acceptBytes Config.params s.pfd bs = .next (e, rs)) :
    Host.Core.run Sys2Proof.core bs.length s = .next { s with
      pfd := e
      input := rest
      result := rs.getLast?.or s.result
      draw := s.draw + bs.length } := by
  induction bs generalizing s rs with
  | nil =>
    cases h
    obtain rfl : s.input = rest := hi
    rfl
  | cons b bs ih =>
    obtain ⟨x, r, qs, hbyte, hbytes, rfl⟩ := acceptBytes_cons_next h
    have hstep := step_byte hi hbyte
    have hlast : qs.getLast?.or (some r) = (r :: qs).getLast?.or s.result := by
      rw [List.getLast?_cons]
      cases qs.getLast? <;> rfl
    rw [List.length_cons, run_succ _ hstep, ih (by simp [hi]) hbytes, hlast]
    simp [Nat.add_assoc, Nat.add_comm 1]

@[simp] theorem frameMessage_payload (P : Config.Params) (id : U16) (src dst : Byte) (p : List Byte) :
    (frameMessage P id src dst p).payload = p := rfl

theorem frameMessage_checksum (P : Config.Params) (id : U16) (src dst : Byte) (p : List Byte) :
    (frameMessage P id src dst p).checksum = cksum P (frameMessage P id src dst p) := rfl

/-- The message of `FRAME` is complete when a u16 can say its length. -/
theorem frameMessage_complete (P : Config.Params) (id : U16) (src dst : Byte) {p : List Byte} (hp : p.length ≤ 65535) :
    (frameMessage P id src dst p).payload.length = (frameMessage P id src dst p).payloadLength.toNat := by
  have hlen : (BitVec.ofNat 16 p.length).toNat = p.length := by
    rw [BitVec.toNat_ofNat, Nat.mod_eq_of_lt (Nat.lt_succ_of_le hp)]
  exact hlen.symm

/-- The call of `FRAME` takes one step, which puts the frame where the call stood and leaves the block (R65, log entry
7). -/
theorem step_frame {s : State} {id : U16} {src dst : Byte} {p : List Byte} {rest : List Item}
    (hi : s.input = .call (.frame id src dst p) :: rest) (hp : p.length ≤ 65535) :
    ∃ t, step s = .next t ∧ t.pfd = s.pfd ∧ t.value = s.value ∧
      t.input = (serialize Config.params (frameMessage Config.params id src dst p)).map Item.byte ++ rest := by
  refine ⟨_, (step_call hi rfl).trans (exec_frame_of_le (consume s) hp), rfl, rfl, ?_⟩
  rw [frameOf_eq, consume_input, hi, List.tail_cons]

/-- Settles O53: the call puts the frame in front of the stream, and its bytes make the round trip. -/
theorem frameInTheStreamIsDelivered : Obligations.FrameInTheStreamIsDelivered := by
  unfold Obligations.FrameInTheStreamIsDelivered
  intro s id src dst p rest hl hp hi
  obtain ⟨t, hcall, hpfd, hvalue, hinput⟩ := step_frame hi hp
  rw [← hpfd] at hl
  have hframe := acceptBytes_serialize Config.params (frameMessage_complete Config.params id src dst hp) hl
  rw [if_pos (frameMessage_checksum ..)] at hframe
  have hrun := run_bytes hinput hframe
  have hlen : (serialize Config.params (frameMessage Config.params id src dst p)).length + 1 = 11 + p.length := by
    rw [serialize_length, frameMessage_payload]
    omega
  rw [← run_succ _ hcall, hlen] at hrun
  refine ⟨_, hrun, rfl, hvalue, rfl, ?_⟩
  rw [List.getLast?_concat, Option.some_or]

end Sys2Proof.Machine
end

section
/-! SUPPORT. The arithmetic laws of the checksum (`40_checksum.md` R72). -/

namespace Sys2Proof.Machine

/-- Settles O59: the integer sum of R70 is over the payload in any order. -/
theorem cksumIgnoresPayloadOrder : Obligations.CksumIgnoresPayloadOrder := by
  unfold Obligations.CksumIgnoresPayloadOrder
  intro P m q hperm
  apply BitVec.eq_of_toNat_eq
  rw [cksum_toNat, cksum_toNat, sum_summedBytes, sum_summedBytes, (hperm.map BitVec.toNat).sum_eq]

/-- Two messages whose integer sums differ by one changed byte have different checksums: the difference is less than
256, so the reduction modulo 65536 does not hide it. -/
theorem cksum_ne_of_sum {P : Config.Params} {m n : Message} {x y : Byte} (hxy : x ≠ y)
    (hsum : ((summedBytes P m).map BitVec.toNat).sum + y.toNat = ((summedBytes P n).map BitVec.toNat).sum + x.toNat) :
    cksum P m ≠ cksum P n := by
  intro h
  have hmod := congrArg BitVec.toNat h
  rw [cksum_toNat, cksum_toNat] at hmod
  have hx : x.toNat < 256 := x.isLt
  have hy : y.toNat < 256 := y.isLt
  exact hxy (BitVec.eq_of_toNat_eq (by omega))

theorem le16_toNat_mod (b0 b1 : Byte) : (le16 b0 b1).toNat % 256 = b0.toNat := by
  rw [← lo8_toNat, lo8_le16]

theorem le16_toNat_div (b0 b1 : Byte) : (le16 b0 b1).toNat / 256 = b1.toNat := by
  rw [← hi8_toNat, hi8_le16]

/-- Settles O60: each byte named is one summand of R70. -/
theorem singleByteCorruptionIsDetected : Obligations.SingleByteCorruptionIsDetected := by
  unfold Obligations.SingleByteCorruptionIsDetected
  intro P m x y z p q hxy
  refine ⟨cksum_ne_of_sum hxy ?_, cksum_ne_of_sum hxy ?_, cksum_ne_of_sum hxy ?_, cksum_ne_of_sum hxy ?_,
    cksum_ne_of_sum hxy ?_⟩
  · simp only [sum_summedBytes, List.map_append, List.map_cons, List.sum_append, List.sum_cons]
    omega
  · simp only [sum_summedBytes]
    omega
  · simp only [sum_summedBytes]
    omega
  · simp only [sum_summedBytes, le16_toNat_mod, le16_toNat_div]
    omega
  · simp only [sum_summedBytes, le16_toNat_mod, le16_toNat_div]
    omega

end Sys2Proof.Machine
end
